-- ==== Sys2Proof/Word.lean ====
section
/-! DEFINITION. The words of the machine: the widths of R9 (00_scope.md) and their plainest arithmetic. -/

namespace Sys2Proof

/-- A general register, a timer, a memory cell: 8 bits, unsigned (R17, R24, R25, R34). -/
abbrev Byte := BitVec 8

/-- I, pc, a return address, an instruction word: 16 bits, unsigned (R21, R22, R23, R53). -/
abbrev Word := BitVec 16

/-- A 4-bit field: a register index X or Y, or the count N (R54). -/
abbrev Nibble := BitVec 4

/-- The 12-bit address field NNN (R54). -/
abbrev Addr12 := BitVec 12

/-- `(c ? 1 : 0)` as an 8-bit register value: every flag rule writes one of these (R12, R20). -/
def flagByte (c : Bool) : Byte := if c then 1 else 0

end Sys2Proof
end

