-- ==== Sys2Proof/Syntax.lean ====
section
/-! DEFINITION. The instruction set: one constructor per row of the opcode map (30_encoding.md R58), with the
operand fields of R54 as data; and the assembler's source lines (R63), whose operands are what a programmer writes. -/

namespace Sys2Proof

/-- The 34 instructions (R58). Each docstring gives the encoding and the rule of its meaning. The fields carry their
widths (R56), so an `Instr` has no operand out of range. -/
inductive Instr where
  /-- 00E0, R101 -/
  | cls
  /-- 00EE, R68 -/
  | ret
  /-- 1NNN, R69 -/
  | jp (nnn : Addr12)
  /-- 2NNN, R70 -/
  | call (nnn : Addr12)
  /-- 3XKK, R71 -/
  | seK (x : Nibble) (kk : Byte)
  /-- 4XKK, R72 -/
  | sneK (x : Nibble) (kk : Byte)
  /-- 5XY0, R73 -/
  | seV (x y : Nibble)
  /-- 6XKK, R79 -/
  | ldK (x : Nibble) (kk : Byte)
  /-- 7XKK, R80 -/
  | addK (x : Nibble) (kk : Byte)
  /-- 8XY0, R81 -/
  | ldV (x y : Nibble)
  /-- 8XY1, R82 -/
  | orV (x y : Nibble)
  /-- 8XY2, R83 -/
  | andV (x y : Nibble)
  /-- 8XY3, R84 -/
  | xorV (x y : Nibble)
  /-- 8XY4, R85 -/
  | addV (x y : Nibble)
  /-- 8XY5, R86 -/
  | sub (x y : Nibble)
  /-- 8XY6, R87: Y is encoded and not read -/
  | shr (x y : Nibble)
  /-- 8XY7, R88 -/
  | subn (x y : Nibble)
  /-- 8XYE, R89: Y is encoded and not read -/
  | shl (x y : Nibble)
  /-- 9XY0, R74 -/
  | sneV (x y : Nibble)
  /-- ANNN, R92 -/
  | ldI (nnn : Addr12)
  /-- BNNN, R75 -/
  | jpV0 (nnn : Addr12)
  /-- CXKK, R90 -/
  | rnd (x : Nibble) (kk : Byte)
  /-- DXYN, R102 -/
  | drw (x y n : Nibble)
  /-- EX9E, R105 -/
  | skp (x : Nibble)
  /-- EXA1, R106 -/
  | sknp (x : Nibble)
  /-- FX07, R107 -/
  | ldVDt (x : Nibble)
  /-- FX0A, R108 -/
  | ldVK (x : Nibble)
  /-- FX15, R110 -/
  | ldDtV (x : Nibble)
  /-- FX18, R111 -/
  | ldStV (x : Nibble)
  /-- FX1E, R93 -/
  | addI (x : Nibble)
  /-- FX29, R94 -/
  | ldF (x : Nibble)
  /-- FX33, R95 -/
  | ldB (x : Nibble)
  /-- FX55, R96 -/
  | stRegs (x : Nibble)
  /-- FX65, R97 -/
  | ldRegs (x : Nibble)
  deriving DecidableEq, Repr

/-! ## Assembler source (R63; PRESUMED, log entry 24: the mnemonics are the spec's general knowledge, decision D22) -/

/-- The mnemonic words of R58's table. -/
inductive AsmName where
  | cls | ret | jp | call | se | sne | ld | add | or | and | xor | sub | shr | subn | shl | rnd | drw | skp | sknp
  deriving DecidableEq, Repr

/-- An operand as it is written (R63). Numbers are what the programmer wrote, not yet checked. -/
inductive AsmOperand where
  /-- `V0` … `VF`, by number -/
  | v (r : Nat)
  /-- `kk`, `nnn` or `n` -/
  | num (n : Nat)
  | dt | st | k | f | b
  /-- `I` -/
  | i
  /-- `[I]` -/
  | atI
  deriving DecidableEq, Repr

/-- One source line: a mnemonic with its operands, or `.word 0xHHHH`, which R63 uses for a word that decodes to NOP. -/
inductive SourceLine where
  | op (name : AsmName) (operands : List AsmOperand)
  | word (w : Nat)
  deriving DecidableEq, Repr

/-- The line R58 and R63 write for an instruction. -/
def Instr.toSource : Instr → SourceLine
  | .cls => .op .cls []
  | .ret => .op .ret []
  | .jp nnn => .op .jp [.num nnn.toNat]
  | .call nnn => .op .call [.num nnn.toNat]
  | .seK x kk => .op .se [.v x.toNat, .num kk.toNat]
  | .sneK x kk => .op .sne [.v x.toNat, .num kk.toNat]
  | .seV x y => .op .se [.v x.toNat, .v y.toNat]
  | .ldK x kk => .op .ld [.v x.toNat, .num kk.toNat]
  | .addK x kk => .op .add [.v x.toNat, .num kk.toNat]
  | .ldV x y => .op .ld [.v x.toNat, .v y.toNat]
  | .orV x y => .op .or [.v x.toNat, .v y.toNat]
  | .andV x y => .op .and [.v x.toNat, .v y.toNat]
  | .xorV x y => .op .xor [.v x.toNat, .v y.toNat]
  | .addV x y => .op .add [.v x.toNat, .v y.toNat]
  | .sub x y => .op .sub [.v x.toNat, .v y.toNat]
  | .shr x y => .op .shr [.v x.toNat, .v y.toNat]
  | .subn x y => .op .subn [.v x.toNat, .v y.toNat]
  | .shl x y => .op .shl [.v x.toNat, .v y.toNat]
  | .sneV x y => .op .sne [.v x.toNat, .v y.toNat]
  | .ldI nnn => .op .ld [.i, .num nnn.toNat]
  | .jpV0 nnn => .op .jp [.v 0, .num nnn.toNat]
  | .rnd x kk => .op .rnd [.v x.toNat, .num kk.toNat]
  | .drw x y n => .op .drw [.v x.toNat, .v y.toNat, .num n.toNat]
  | .skp x => .op .skp [.v x.toNat]
  | .sknp x => .op .sknp [.v x.toNat]
  | .ldVDt x => .op .ld [.v x.toNat, .dt]
  | .ldVK x => .op .ld [.v x.toNat, .k]
  | .ldDtV x => .op .ld [.dt, .v x.toNat]
  | .ldStV x => .op .ld [.st, .v x.toNat]
  | .addI x => .op .add [.i, .v x.toNat]
  | .ldF x => .op .ld [.f, .v x.toNat]
  | .ldB x => .op .ld [.b, .v x.toNat]
  | .stRegs x => .op .ld [.atI, .v x.toNat]
  | .ldRegs x => .op .ld [.v x.toNat, .atI]

end Sys2Proof
end

