-- ==== Sys2Proof/WellFormed.lean ====
section
/-! DEFINITION. Well-formedness of source lines: the operand ranges and shapes of R63 (30_encoding.md), each check
refusing by name. An `Instr` carries its ranges in its field types, so `Instr.wellFormed` says that the line the
instruction is written as passes every check and stands for that instruction. -/

namespace Sys2Proof

/-- Why a source line is refused. -/
inductive SourceError where
  /-- a register above VF -/
  | registerRange (r : Nat)
  /-- a byte above 0xFF -/
  | byteRange (n : Nat)
  /-- an address above 0xFFF -/
  | addressRange (n : Nat)
  /-- a nibble above 0xF -/
  | nibbleRange (n : Nat)
  /-- a `.word` value above 0xFFFF -/
  | wordRange (n : Nat)
  /-- no instruction of R58 has this mnemonic with operands of this shape -/
  | noSuchForm
  deriving DecidableEq, Repr

/-- `Vx` is V0 to VF (R63). -/
def checkReg (r : Nat) : Except SourceError Nibble :=
  if r < 16 then .ok (BitVec.ofNat 4 r) else .error (.registerRange r)

/-- `kk` is a byte 0x00–0xFF (R63). -/
def checkByte (n : Nat) : Except SourceError Byte :=
  if n < 256 then .ok (BitVec.ofNat 8 n) else .error (.byteRange n)

/-- `nnn` is an address 0x000–0xFFF (R63). -/
def checkAddr (n : Nat) : Except SourceError Addr12 :=
  if n < 4096 then .ok (BitVec.ofNat 12 n) else .error (.addressRange n)

/-- `n` is a nibble 0x0–0xF (R63). -/
def checkNibble (n : Nat) : Except SourceError Nibble :=
  if n < 16 then .ok (BitVec.ofNat 4 n) else .error (.nibbleRange n)

/-- `Vx` alone. -/
def formX (mk : Nibble → Instr) (x : Nat) : Except SourceError Instr :=
  (checkReg x).map mk

/-- `Vx, Vy`. -/
def formXY (mk : Nibble → Nibble → Instr) (x y : Nat) : Except SourceError Instr :=
  (checkReg x).bind fun x' => (checkReg y).map (mk x')

/-- `Vx, kk`. -/
def formXK (mk : Nibble → Byte → Instr) (x kk : Nat) : Except SourceError Instr :=
  (checkReg x).bind fun x' => (checkByte kk).map (mk x')

/-- `nnn`. -/
def formA (mk : Addr12 → Instr) (nnn : Nat) : Except SourceError Instr :=
  (checkAddr nnn).map mk

/-- The instruction a mnemonic and its operands stand for, or the check they fail. `SHR Vx` and `SHL Vx` without Vy
encode Y = 0 (R63). -/
def checkOp : AsmName → List AsmOperand → Except SourceError Instr
  | .cls, [] => .ok .cls
  | .ret, [] => .ok .ret
  | .jp, [.num nnn] => formA .jp nnn
  | .jp, [.v 0, .num nnn] => formA .jpV0 nnn
  | .call, [.num nnn] => formA .call nnn
  | .se, [.v x, .num kk] => formXK .seK x kk
  | .se, [.v x, .v y] => formXY .seV x y
  | .sne, [.v x, .num kk] => formXK .sneK x kk
  | .sne, [.v x, .v y] => formXY .sneV x y
  | .ld, [.v x, .num kk] => formXK .ldK x kk
  | .ld, [.v x, .v y] => formXY .ldV x y
  | .ld, [.i, .num nnn] => formA .ldI nnn
  | .ld, [.v x, .dt] => formX .ldVDt x
  | .ld, [.v x, .k] => formX .ldVK x
  | .ld, [.dt, .v x] => formX .ldDtV x
  | .ld, [.st, .v x] => formX .ldStV x
  | .ld, [.f, .v x] => formX .ldF x
  | .ld, [.b, .v x] => formX .ldB x
  | .ld, [.atI, .v x] => formX .stRegs x
  | .ld, [.v x, .atI] => formX .ldRegs x
  | .add, [.v x, .num kk] => formXK .addK x kk
  | .add, [.v x, .v y] => formXY .addV x y
  | .add, [.i, .v x] => formX .addI x
  | .or, [.v x, .v y] => formXY .orV x y
  | .and, [.v x, .v y] => formXY .andV x y
  | .xor, [.v x, .v y] => formXY .xorV x y
  | .sub, [.v x, .v y] => formXY .sub x y
  | .shr, [.v x, .v y] => formXY .shr x y
  | .shr, [.v x] => formXY .shr x 0
  | .subn, [.v x, .v y] => formXY .subn x y
  | .shl, [.v x, .v y] => formXY .shl x y
  | .shl, [.v x] => formXY .shl x 0
  | .rnd, [.v x, .num kk] => formXK .rnd x kk
  | .drw, [.v x, .v y, .num n] =>
    (checkReg x).bind fun x' => (checkReg y).bind fun y' => (checkNibble n).map (Instr.drw x' y')
  | .skp, [.v x] => formX .skp x
  | .sknp, [.v x] => formX .sknp x
  | _, _ => .error .noSuchForm

/-- What a source line that passes every check stands for: an instruction, or the bare word of a `.word` line. -/
inductive Checked where
  | instr (i : Instr)
  | word (w : Word)
  deriving DecidableEq, Repr

/-- The whole check of one source line. -/
def checkLine : SourceLine → Except SourceError Checked
  | .op name operands => (checkOp name operands).map .instr
  | .word n => if n < 65536 then .ok (.word (BitVec.ofNat 16 n)) else .error (.wordRange n)

/-- A source line is well formed when it passes every check. -/
def SourceLine.wellFormed (l : SourceLine) : Bool :=
  match checkLine l with
  | .ok _ => true
  | .error _ => false

/-- An instruction is well formed when the line it is written as passes every check and stands for it. -/
def Instr.wellFormed (i : Instr) : Bool :=
  match checkLine i.toSource with
  | .ok (.instr j) => j == i
  | _ => false

end Sys2Proof
end

