-- ==== Sys2Proof/Decode.lean ====
section
/-! DEFINITION. Decoding (30_encoding.md R53 to R61) and encoding (R55, R58). Decoding is total: every word is one of
the 34 instructions or a NOP (R61). -/

namespace Sys2Proof

/-- The result of decoding one word: an instruction of R58, or NOP, which keeps the word it was read from (R60). -/
inductive Decoded where
  | instr (i : Instr)
  | nop (w : Word)
  deriving DecidableEq, Repr

/-! ## The fields of R54 -/

/-- op = w[15:12], the family. -/
def fieldOp (w : Word) : Nibble := w.extractLsb' 12 4
/-- X = w[11:8]. -/
def fieldX (w : Word) : Nibble := w.extractLsb' 8 4
/-- Y = w[7:4]. -/
def fieldY (w : Word) : Nibble := w.extractLsb' 4 4
/-- N = w[3:0]. -/
def fieldN (w : Word) : Nibble := w.extractLsb' 0 4
/-- KK = w[7:0]. -/
def fieldKK (w : Word) : Byte := w.extractLsb' 0 8
/-- NNN = w[11:0]. -/
def fieldNNN (w : Word) : Addr12 := w.extractLsb' 0 12

/-! ## The families with an inner selector (R57, R59) -/

/-- Family 0x0. Strict: 00E0 and 00EE match only as whole words. Lax: the family selects on KK alone, whatever X is
(R59; log entry 9). -/
def decode0 (lax : Bool) (w : Word) : Decoded :=
  if w = 0x00E0 ∨ (lax ∧ fieldKK w = 0xE0) then .instr .cls
  else if w = 0x00EE ∨ (lax ∧ fieldKK w = 0xEE) then .instr .ret
  else .nop w

/-- Families 0x5 and 0x9: N must be 0 in strict decode and is ignored in lax decode (R59). -/
def decodeN0 (lax : Bool) (w : Word) (mk : Nibble → Nibble → Instr) : Decoded :=
  if fieldN w = 0 ∨ lax then .instr (mk (fieldX w) (fieldY w)) else .nop w

/-- Family 0x8 selects on N (R57, R59). -/
def decode8 (w : Word) : Decoded :=
  match (fieldN w).toNat with
  | 0x0 => .instr (.ldV (fieldX w) (fieldY w))
  | 0x1 => .instr (.orV (fieldX w) (fieldY w))
  | 0x2 => .instr (.andV (fieldX w) (fieldY w))
  | 0x3 => .instr (.xorV (fieldX w) (fieldY w))
  | 0x4 => .instr (.addV (fieldX w) (fieldY w))
  | 0x5 => .instr (.sub (fieldX w) (fieldY w))
  | 0x6 => .instr (.shr (fieldX w) (fieldY w))
  | 0x7 => .instr (.subn (fieldX w) (fieldY w))
  | 0xE => .instr (.shl (fieldX w) (fieldY w))
  | _ => .nop w

/-- Family 0xE selects on KK (R57, R59). -/
def decodeE (w : Word) : Decoded :=
  if fieldKK w = 0x9E then .instr (.skp (fieldX w))
  else if fieldKK w = 0xA1 then .instr (.sknp (fieldX w))
  else .nop w

/-- Family 0xF selects on KK (R57, R59). -/
def decodeF (w : Word) : Decoded :=
  if fieldKK w = 0x07 then .instr (.ldVDt (fieldX w))
  else if fieldKK w = 0x0A then .instr (.ldVK (fieldX w))
  else if fieldKK w = 0x15 then .instr (.ldDtV (fieldX w))
  else if fieldKK w = 0x18 then .instr (.ldStV (fieldX w))
  else if fieldKK w = 0x1E then .instr (.addI (fieldX w))
  else if fieldKK w = 0x29 then .instr (.ldF (fieldX w))
  else if fieldKK w = 0x33 then .instr (.ldB (fieldX w))
  else if fieldKK w = 0x55 then .instr (.stRegs (fieldX w))
  else if fieldKK w = 0x65 then .instr (.ldRegs (fieldX w))
  else .nop w

/-- Decode(w) of R59, under LAX_DECODE = `lax` (R10). First the family, then the inner selector (R57). -/
def decodeWord (lax : Bool) (w : Word) : Decoded :=
  match (fieldOp w).toNat with
  | 0x0 => decode0 lax w
  | 0x1 => .instr (.jp (fieldNNN w))
  | 0x2 => .instr (.call (fieldNNN w))
  | 0x3 => .instr (.seK (fieldX w) (fieldKK w))
  | 0x4 => .instr (.sneK (fieldX w) (fieldKK w))
  | 0x5 => decodeN0 lax w .seV
  | 0x6 => .instr (.ldK (fieldX w) (fieldKK w))
  | 0x7 => .instr (.addK (fieldX w) (fieldKK w))
  | 0x8 => decode8 w
  | 0x9 => decodeN0 lax w .sneV
  | 0xA => .instr (.ldI (fieldNNN w))
  | 0xB => .instr (.jpV0 (fieldNNN w))
  | 0xC => .instr (.rnd (fieldX w) (fieldKK w))
  | 0xD => .instr (.drw (fieldX w) (fieldY w) (fieldN w))
  | 0xE => decodeE w
  | _ => decodeF w

/-- The instruction word of two consecutive bytes, big-endian: the first byte gives bits 15:8 (R41, R53). -/
def wordOfBytes (hi lo : Byte) : Word := hi ++ lo

/-- Why a byte sequence is no instruction. -/
inductive DecodeError where
  /-- fewer than the two bytes every instruction has (R53) -/
  | truncated
  deriving DecidableEq, Repr

/-- Decode the first instruction of a byte sequence and give back the rest (R53). -/
def decodeBytes (lax : Bool) : List Byte → Except DecodeError (Decoded × List Byte)
  | hi :: lo :: rest => .ok (decodeWord lax (wordOfBytes hi lo), rest)
  | _ => .error .truncated

/-! ## Encoding (R55, R58) -/

/-- The word of an instruction: the fixed digits of R58's encoding with the operand nibbles in their places, the most
significant nibble first (R11). -/
def encode : Instr → Word
  | .cls => 0x00E0
  | .ret => 0x00EE
  | .jp nnn => 0x1#4 ++ nnn
  | .call nnn => 0x2#4 ++ nnn
  | .seK x kk => 0x3#4 ++ x ++ kk
  | .sneK x kk => 0x4#4 ++ x ++ kk
  | .seV x y => 0x5#4 ++ x ++ y ++ 0x0#4
  | .ldK x kk => 0x6#4 ++ x ++ kk
  | .addK x kk => 0x7#4 ++ x ++ kk
  | .ldV x y => 0x8#4 ++ x ++ y ++ 0x0#4
  | .orV x y => 0x8#4 ++ x ++ y ++ 0x1#4
  | .andV x y => 0x8#4 ++ x ++ y ++ 0x2#4
  | .xorV x y => 0x8#4 ++ x ++ y ++ 0x3#4
  | .addV x y => 0x8#4 ++ x ++ y ++ 0x4#4
  | .sub x y => 0x8#4 ++ x ++ y ++ 0x5#4
  | .shr x y => 0x8#4 ++ x ++ y ++ 0x6#4
  | .subn x y => 0x8#4 ++ x ++ y ++ 0x7#4
  | .shl x y => 0x8#4 ++ x ++ y ++ 0xE#4
  | .sneV x y => 0x9#4 ++ x ++ y ++ 0x0#4
  | .ldI nnn => 0xA#4 ++ nnn
  | .jpV0 nnn => 0xB#4 ++ nnn
  | .rnd x kk => 0xC#4 ++ x ++ kk
  | .drw x y n => 0xD#4 ++ x ++ y ++ n
  | .skp x => 0xE#4 ++ x ++ 0x9E#8
  | .sknp x => 0xE#4 ++ x ++ 0xA1#8
  | .ldVDt x => 0xF#4 ++ x ++ 0x07#8
  | .ldVK x => 0xF#4 ++ x ++ 0x0A#8
  | .ldDtV x => 0xF#4 ++ x ++ 0x15#8
  | .ldStV x => 0xF#4 ++ x ++ 0x18#8
  | .addI x => 0xF#4 ++ x ++ 0x1E#8
  | .ldF x => 0xF#4 ++ x ++ 0x29#8
  | .ldB x => 0xF#4 ++ x ++ 0x33#8
  | .stRegs x => 0xF#4 ++ x ++ 0x55#8
  | .ldRegs x => 0xF#4 ++ x ++ 0x65#8

/-- The bytes of a word in memory order, bits 15:8 at the lower address (R41). -/
def bytesOfWord (w : Word) : List Byte := [w.extractLsb' 8 8, w.extractLsb' 0 8]

/-! ## Assembling and disassembling (R63) -/

/-- The word a source line assembles to, or the check it fails. -/
def assembleLine (l : SourceLine) : Except SourceError Word :=
  (checkLine l).map fun
    | .instr i => encode i
    | .word w => w

/-- The line a word is written as: its instruction, or `.word` for a NOP (R63). R63 does not say which LAX_DECODE value
decides; strict decode decides here, always. DESIGN CHOICE (log entry 32). -/
def disassembleWord (w : Word) : SourceLine :=
  match decodeWord false w with
  | .instr i => i.toSource
  | .nop w => .word w.toNat

/-! ## The opcode table's numbering -/

/-- The 16 bits of a table word: bit 0 is the least significant, and every bit at or above `nbits` is 0. -/
def tableWord (nbits w : Nat) : Word := BitVec.ofNat 16 (w % 2 ^ nbits)

/-- The instruction the decoder reads from the bytes of a table word, strict decode (the default of R10); none for NOP. -/
def decodeTableWord (nbits w : Nat) : Option Instr :=
  match decodeBytes false (bytesOfWord (tableWord nbits w)) with
  | .ok (.instr i, _) => some i
  | _ => none

end Sys2Proof
end

