-- ==== Sys2Proof/Config.lean ====
section
/-! DEFINITION. What is fixed for the machine: the constants of 00_scope.md R9, the parameters R10 makes arguments of
the model, and the one free value, the random byte of CXKK (42_register_alu.md R91). -/

namespace Sys2Proof

/-- MEM_SIZE: 4096 bytes, addresses 0x000–0xFFF (R9, R34). -/
abbrev memSize : Nat := 0x1000

/-- FONT_SIZE: the font table is 0x000–0x04F (R9, R35). -/
abbrev fontSize : Nat := 0x50

/-- PROG_BASE: the load address and the reset pc (R9, R45, R143). -/
abbrev progBase : Nat := 0x200

/-- PROG_MAX: the longest program image (R9, R144). -/
abbrev progMax : Nat := 0xE00

/-- The FONT parameter: 16 glyphs of 5 bytes, glyph d at address d × 5, top row first (R9, R36). -/
abbrev Font := Vector (Vector Byte 5) 16

/-- FLAG_ORDER (R10, R78): how 8XY5, 8XY6, 8XY7 and 8XYE order the flag and the result. -/
inductive FlagOrder where
  /-- the statements run in the order §4.3 lists them, each reading what the earlier ones wrote -/
  | asListed
  /-- operands are read first; the flag is written last -/
  | flagLast
  deriving DecidableEq, Repr

/-- TIMER_COUPLING (R10, R125). -/
inductive TimerCoupling where
  /-- timers change only in `tick_timers` -/
  | decoupled
  /-- every step that returns Ok or Stalled ends with a tick -/
  | perStep
  deriving DecidableEq, Repr

/-- The parameters R10 leaves open, each an argument of the model. The fifth, RNG, is `Config.randomByte`. -/
structure Params where
  font : Font
  laxDecode : Bool
  flagOrder : FlagOrder
  timerCoupling : TimerCoupling
  deriving DecidableEq, Repr

/-- The free value of the model: the byte that the n-th call of RandomByte() draws, any value 0x00–0xFF (R91; U9;
log entry 4). It has no body, so nothing can be proved of its value. -/
opaque Config.randomByte : Nat → Byte

end Sys2Proof
end

