-- ==== Sys2Proof/Machine/State.lean ====
section
/-! DEFINITION. The state of the core: everything 10_state.md R16 lists, as plain data, and the state after reset
(R33). -/

namespace Sys2Proof.Machine

/-- How an access reached memory (R112). -/
inductive Access where
  | fetch | read | write
  deriving DecidableEq, Repr

/-- Why a memory access was rejected (R112). -/
inductive MemoryReason where
  /-- an address above 0xFFF -/
  | outOfRange
  /-- a write to 0x000–0x04F (decision D7, log entry 14) -/
  | fontProtected
  deriving DecidableEq, Repr

/-- Which end of the stack was passed (R112, R114). -/
inductive StackDirection where
  | overflow | underflow
  deriving DecidableEq, Repr

/-- The fault record (R30, R112): a kind with its info. A fault is RECORDED in `State.fault` by `State.takeFault`,
which answers a next state, because R120 and R121 say what the core holds after one; so no meaning answers
`Host.Outcome.fault` with one of these (log entry 7). Where the hardware would go on instead, stopping is safe. -/
inductive Fault where
  /-- Raised by the instruction fetch, DXYN, FX33, FX55, FX65 (R113). Safe where an implementation would wrap,
  ignore or perform the access (D7, D8, D19). `addr` is the exact first failing address (log entry 16). -/
  | memoryFault (addr : Nat) (access : Access) (reason : MemoryReason)
  /-- Raised by 2NNN with sp = 16 and by 00EE with sp = 0 (R114). The spec requires it; safe. -/
  | stackFault (direction : StackDirection) (sp : Fin 17)
  /-- Raised by EX9E and EXA1 with V[X] > 0xF (R115). Safe where an implementation would mask the index (D11). -/
  | keyIndexFault (value : Byte)
  deriving DecidableEq, Repr

/-- Why an instruction has no meaning. -/
inductive Refusal where
  /-- Raised by an arm of `exec` that has no meaning yet, and by nothing else; safe. In this model no arm is so. -/
  | notModelled (mnemonic : String)
  deriving DecidableEq, Repr

/-- Memory: the cells whose byte differs from the reset content of their address, by rising address (log entry 1). -/
abbrev Memory := List Host.Cell

/-- The display buffer: 32 rows of 64 pixels (R26). `disp[y][x]` is the pixel at column x and row y; true is set. -/
abbrev Display := Vector (Vector Bool 64) 32

/-- The core's state (R16), under the spec's names. -/
structure State where
  /-- `mem[0x000..0xFFF]` (R34) -/
  mem : Memory
  /-- `V[0x0..0xF]`; V[0xF] is the flag register VF (R17, R19) -/
  v : Vector Byte 16
  /-- `I`, the address register (R21) -/
  i : Word
  /-- `pc` (R22) -/
  pc : Word
  /-- `stack[0..15]` (R23) -/
  stack : Vector Word 16
  /-- `sp`, the number of stack entries in use, 0..16 (R23) -/
  sp : Fin 17
  /-- `DT`, the delay timer (R24) -/
  dt : Byte
  /-- `ST`, the sound timer (R25) -/
  st : Byte
  /-- `disp` (R26) -/
  disp : Display
  /-- `key[0x0..0xF]`; true is pressed (R27) -/
  key : Vector Bool 16
  /-- `waiting`, the key-wait stall flag (R28) -/
  waiting : Bool
  /-- `wait_reg`, the register that will receive the key (R28) -/
  waitReg : Nibble
  /-- `dirty`, the Draw-Dirty flag (R29) -/
  dirty : Bool
  /-- `fault`: none while the core runs (R30) -/
  fault : Option Fault
  /-- `rng` (R31): the number of random bytes drawn so far, the model's own form of the opaque generator state (log
  entries 4 and 5) -/
  rng : Nat
  /-- the parameters of R10; the model's own field, which no transition writes (log entry 6) -/
  params : Params
  deriving DecidableEq, Repr

/-- The state after `construct()` with the default parameters (R33, R142). mem and pc are the source's; every other
value is decision D16 (log entry 3); rng is log entry 5. -/
def State.reset : State where
  mem := []
  v := Vector.replicate 16 0
  i := 0
  pc := 0x0200
  stack := Vector.replicate 16 0
  sp := 0
  dt := 0
  st := 0
  disp := Vector.replicate 32 (Vector.replicate 64 false)
  key := Vector.replicate 16 false
  waiting := false
  waitReg := 0
  dirty := false
  fault := none
  rng := 0
  params := defaultParams

end Sys2Proof.Machine
end

