-- ==== Sys2Proof/Machine/Operands.lean ====
section
/-! DEFINITION. Operand forms (30_encoding.md R56; 10_state.md R17; 43_index_memory.md R98): registers by index, the
zero-extended address, the effective address I + k, the key index, the decimal digits. -/

namespace Sys2Proof.Machine

/-- `V[x]` (R13, R17): all 16 indices alike, none hardwired. -/
def State.getV (s : State) (x : Nibble) : Byte := s.v[x.toNat]'x.isLt

/-- `V[x] <- b` (R13, R17). -/
def State.setV (s : State) (x : Nibble) (b : Byte) : State := { s with v := s.v.set x.toNat b x.isLt }

/-- VF, the flag register, is register 0xF (R9, R19). -/
def flagReg : Nibble := 0xF

/-- `zext_16(NNN)` (R56). -/
def addrWord (nnn : Addr12) : Word := nnn.setWidth 16

/-- The effective address I + k, an exact integer that never wraps (R37, R98; decision D8, log entry 15). -/
def State.dataAddr (s : State) (k : Nat) : Nat := s.i.toNat + k

/-- The key an index byte names: none for 0x10–0xFF (R104). -/
def keyIndex (b : Byte) : Option (Fin 16) :=
  if h : b.toNat < 16 then some ⟨b.toNat, h⟩ else none

/-- The bytes `V[0] .. V[x]`, in order (R96). -/
def State.regBytes (s : State) (x : Nibble) : List Byte :=
  (List.range (x.toNat + 1)).map fun k => s.getV (BitVec.ofNat 4 k)

/-- The three decimal digits of a byte, hundreds first (R95). -/
def bcdBytes (b : Byte) : List Byte :=
  [BitVec.ofNat 8 (b.toNat / 100), BitVec.ofNat 8 (b.toNat / 10 % 10), BitVec.ofNat 8 (b.toNat % 10)]

end Sys2Proof.Machine
end

