-- ==== Sys2Proof/Machine/Ops.lean ====
section
/-! DEFINITION. The named operations over memory, the stack, pc, the timers, the generator and the input latch, and
taking a fault, each used by the meanings and by the step. -/

namespace Sys2Proof.Machine

/-! ## Memory (20_memory.md) -/

/-- What an address reads as while nothing is listed for it, its reset content: FONT at 0x000–0x04F, glyph d at 5 × d,
and 0x00 elsewhere (R33, R36, R142; log entry 1). -/
def unlistedByte (font : Font) (a : Nat) : Byte :=
  if h : a < fontSize then (font[a / 5]'(by simp only [fontSize] at h; omega))[a % 5]'(by omega) else 0

/-- The byte at an address: the listed one, else the reset content. -/
def Memory.read (font : Font) : Memory → Nat → Byte
  | [], a => unlistedByte font a
  | (k, b) :: rest, a => if k = a then b else Memory.read font rest a

/-- Put a byte at an address, keeping the canonical form: the reset content is never listed. -/
def Memory.write (font : Font) : Memory → Nat → Byte → Memory
  | [], a, b => if b = unlistedByte font a then [] else [(a, b)]
  | (k, c) :: rest, a, b =>
    if k = a then
      if b = unlistedByte font a then Memory.write font rest a b else (a, b) :: rest
    else if a < k ∧ b ≠ unlistedByte font a then (a, b) :: (k, c) :: rest
    else (k, c) :: Memory.write font rest a b

/-- The canonical form, with every listed address at or above `lo`: addresses strictly rising and below 0x1000, and no
byte equal to the reset content of its address. -/
def Memory.wfFrom (font : Font) : Nat → Memory → Bool
  | _, [] => true
  | lo, (k, b) :: rest =>
    decide (lo ≤ k) && decide (k < memSize) && decide (b ≠ unlistedByte font k) && Memory.wfFrom font (k + 1) rest

/-- The canonical form of memory. -/
def Memory.wf (font : Font) (m : Memory) : Bool := Memory.wfFrom font 0 m

/-- `mem[a]` (R38, without the range check). -/
def State.byteAt (s : State) (a : Nat) : Byte := Memory.read s.params.font s.mem a

/-- `mem[a] <- b` (R39, without the checks; the host's `load` writes so too, R144). -/
def State.writeByte (s : State) (a : Nat) (b : Byte) : State :=
  { s with mem := Memory.write s.params.font s.mem a b }

/-- Store bytes at `base`, `base + 1`, … in that order (R95, R96, R144). -/
def State.storeBytes (s : State) (base : Nat) : List Byte → State
  | [] => s
  | b :: bs => (s.writeByte base b).storeBytes (base + 1) bs

/-- Load `V[k] <- mem[base + k]` for k = 0 .. n − 1 in that order (R97). -/
def State.loadRegs (s : State) (base : Nat) : Nat → State
  | 0 => s
  | n + 1 => (s.loadRegs base n).setV (BitVec.ofNat 4 n) (s.byteAt (base + n))

/-- The bytes at `base .. base + n − 1` (R102). -/
def State.readBytes (s : State) (base n : Nat) : List Byte := (List.range n).map fun k => s.byteAt (base + k)

/-- The check of `MemRead` (R38). -/
def checkRead (a : Nat) : Option Fault :=
  if a > 0xFFF then some (.memoryFault a .read .outOfRange) else none

/-- The check of `MemWrite` (R39; decision D7, log entry 14). -/
def checkWrite (a : Nat) : Option Fault :=
  if a > 0xFFF then some (.memoryFault a .write .outOfRange)
  else if a ≤ 0x04F then some (.memoryFault a .write .fontProtected)
  else none

/-- The fault of the lowest failing offset among `base .. base + n − 1` (R119; decision D27, log entry 16). -/
def firstFailing (check : Nat → Option Fault) (base : Nat) : Nat → Option Fault
  | 0 => none
  | n + 1 =>
    match firstFailing check base n with
    | some f => some f
    | none => check (base + n)

/-! ## Taking a fault (60_exceptions.md R120) -/

/-- Fault entry. The state a meaning is given is the state at the start of the step, so nothing has to be put back:
the fault is recorded and everything else stays as it is, pc at the faulting instruction included (R120; decision D9,
log entries 7 and 8). There is no handler and no return from a fault (R122). -/
def State.takeFault (s : State) (f : Fault) : Host.Outcome State Fault Refusal := .next { s with fault := some f }

/-- All checks come before any effect (R14, R43): a failing check takes its fault, else the instruction runs. -/
def State.guarded (s : State) (check : Option Fault) (body : State) : Host.Outcome State Fault Refusal :=
  match check with
  | some f => s.takeFault f
  | none => .next body

/-! ## pc (30_encoding.md R65, 41_control_flow.md R67) -/

/-- The pre-advance `pc <- pc + 2` (R65). -/
def State.advance (s : State) : State := { s with pc := s.pc + 2 }

/-- `pc <- target` (R13). -/
def State.jumpTo (s : State) (target : Word) : State := { s with pc := target }

/-- A skip: `pc <- pc + 2` on top of the pre-advance when the condition holds (R67). -/
def State.skipIf (s : State) (c : Bool) : State := if c then s.advance else s

/-! ## The stack (10_state.md R23) -/

/-- `stack[sp] <- a; sp <- sp + 1`, or StackFault(Overflow, 16) when 16 entries are in use (R70; decision D17, log
entry 21). -/
def State.push (s : State) (a : Word) : Except Fault State :=
  if h : s.sp.val < 16 then
    .ok { s with stack := s.stack.set s.sp.val a h, sp := ⟨s.sp.val + 1, by omega⟩ }
  else .error (.stackFault .overflow s.sp)

/-- `sp <- sp − 1` and the entry then at `stack[sp]`, or StackFault(Underflow, 0) when none is in use (R68). -/
def State.pop (s : State) : Except Fault (Word × State) :=
  if h : s.sp.val = 0 then .error (.stackFault .underflow s.sp)
  else
    .ok (s.stack[s.sp.val - 1]'(by have := s.sp.isLt; omega),
      { s with sp := ⟨s.sp.val - 1, by have := s.sp.isLt; omega⟩ })

/-! ## The random generator (42_register_alu.md R91) -/

/-- RandomByte(): a free value, and the generator advances by one draw (R91; log entry 4). -/
def State.randomByte (s : State) : Byte × State := (Config.randomByte s.rng, { s with rng := s.rng + 1 })

/-! ## The timers (60_exceptions.md R124, R125) -/

/-- Decrement by 1, floored at 0 (R124). -/
def floorDec (b : Byte) : Byte := if b = 0 then 0 else b - 1

/-- `tick_timers()` (R124); it changes nothing in a faulted core (R121). -/
def State.tickTimers (s : State) : State :=
  if s.fault.isSome then s else { s with dt := floorDec s.dt, st := floorDec s.st }

/-- The end of a step that returned Ok or Stalled: under PerStep the body of `tick_timers` runs once (R125; decision
D14, log entry 20). A step that faulted leaves `fault` set, so nothing ticks. -/
def State.endStep (s : State) : State :=
  match s.params.timerCoupling with
  | .decoupled => s
  | .perStep => s.tickTimers

/-! ## The key wait (45_timers_input.md R109) -/

/-- The lowest index with key[k] = 1 (R109; decision D12, log entry 18). -/
def lowestPressed (key : Vector Bool 16) : Option Nat := key.toList.findIdx? id

/-- KeyWaitStep(): with no key pressed nothing changes (Stalled); else the lowest key's index is written to V[wait_reg]
and the wait ends (Ok). No instruction is fetched (R109; decision D13, log entry 19). -/
def State.keyWaitStep (s : State) : State :=
  match lowestPressed s.key with
  | none => s
  | some k => { s.setV s.waitReg (BitVec.ofNat 8 k) with waiting := false }

/-! ## The instruction fetch (20_memory.md R40) -/

/-- FetchWord(pc): the two bytes at pc and pc + 1, big-endian, from any pc up to 0xFFE, odd ones and the font region
included; else MemoryFault(pc, Fetch, OutOfRange) (R40 to R42; decisions D18, D19, log entries 16 and 22). -/
def State.fetchWord (s : State) : Except Fault Word :=
  if s.pc.toNat + 1 > 0xFFF then .error (.memoryFault s.pc.toNat .fetch .outOfRange)
  else .ok (wordOfBytes (s.byteAt s.pc.toNat) (s.byteAt (s.pc.toNat + 1)))

end Sys2Proof.Machine
end

