-- ==== Sys2Proof/Machine/Flags.lean ====
section
/-! DEFINITION. Every flag computation of the ISA (10_state.md R20; 42_register_alu.md R77, R78). VF is the only flag;
its collision value is computed by DXYN's drawing loop in Machine/DisplayOps.lean. -/

namespace Sys2Proof.Machine

/-- Carry of 8XY4: 1 exactly when the unsigned sum exceeds 255 (R77, R85). -/
def carryFlag (a b : Byte) : Byte := flagByte (decide (a.toNat + b.toNat > 255))

/-- The flag of 8XY5 and 8XY7: 1 exactly when the minuend is strictly greater than the subtrahend (R77, R86, R88). -/
def greaterFlag (minuend subtrahend : Byte) : Byte := flagByte (decide (minuend.toNat > subtrahend.toNat))

/-- The flag of 8XY6 and 8XYE: the pre-shift least-significant bit (R87, R89). -/
def lsbFlag (a : Byte) : Byte := a &&& 1

/-- 8XY4's order: the result, then the flag, both from the pre-operation values; the same under both FLAG_ORDERs
(R78, R85). -/
def State.resultThenFlag (s : State) (x : Nibble) (result flag : Byte) : State :=
  (s.setV x result).setV flagReg flag

/-- The order of 8XY5, 8XY6, 8XY7 and 8XYE (R78; decision D3, log entry 10). AsListed: the flag, computed from the
pre-operation values, is written first, and `result` reads the registers after that write. FlagLast: `result` reads the
pre-operation registers and the flag is written last. -/
def State.flagAndResult (s : State) (x : Nibble) (flag : Byte) (result : State → Byte) : State :=
  match s.params.flagOrder with
  | .asListed => (s.setV flagReg flag).setV x (result (s.setV flagReg flag))
  | .flagLast => (s.setV x (result s)).setV flagReg flag

end Sys2Proof.Machine
end

