-- ==== Sys2Proof/Machine/ControlFlow.lean ====
section
/-! DEFINITION. Control flow: jumps, calls, returns, skips (41_control_flow.md). A meaning is given the state at the
start of the step, with pc at the instruction; it makes the pre-advance of R65 itself (log entry 27). -/

namespace Sys2Proof.Machine

/-- RET (00EE), R68. -/
def execRet (s : State) : Host.Outcome State Fault Refusal :=
  match s.pop with
  | .error f => s.takeFault f
  | .ok (a, t) => .next (t.jumpTo a)

/-- JP nnn (1NNN), R69. -/
def execJp (nnn : Addr12) (s : State) : Host.Outcome State Fault Refusal :=
  .next (s.jumpTo (addrWord nnn))

/-- CALL nnn (2NNN), R70: the return address is this instruction's address + 2. -/
def execCall (nnn : Addr12) (s : State) : Host.Outcome State Fault Refusal :=
  match s.push s.advance.pc with
  | .error f => s.takeFault f
  | .ok t => .next (t.jumpTo (addrWord nnn))

/-- SE Vx, kk (3XKK), R71. -/
def execSeK (x : Nibble) (kk : Byte) (s : State) : Host.Outcome State Fault Refusal :=
  .next (s.advance.skipIf (s.getV x == kk))

/-- SNE Vx, kk (4XKK), R72. -/
def execSneK (x : Nibble) (kk : Byte) (s : State) : Host.Outcome State Fault Refusal :=
  .next (s.advance.skipIf (s.getV x != kk))

/-- SE Vx, Vy (5XY0), R73. -/
def execSeV (x y : Nibble) (s : State) : Host.Outcome State Fault Refusal :=
  .next (s.advance.skipIf (s.getV x == s.getV y))

/-- SNE Vx, Vy (9XY0), R74. -/
def execSneV (x y : Nibble) (s : State) : Host.Outcome State Fault Refusal :=
  .next (s.advance.skipIf (s.getV x != s.getV y))

/-- JP V0, nnn (BNNN), R75: the offset register is always V0, and the sum is never taken mod 2^12. -/
def execJpV0 (nnn : Addr12) (s : State) : Host.Outcome State Fault Refusal :=
  .next (s.jumpTo (addrWord nnn + (s.getV 0).setWidth 16))

end Sys2Proof.Machine
end

