-- ==== Sys2Proof/Machine/DisplayOps.lean ====
section
/-! DEFINITION. The display instructions (44_display.md) and the operations on the display buffer (10_state.md R26). -/

namespace Sys2Proof.Machine

/-- `disp[x][y]` (R26). -/
def Display.pixel (d : Display) (x : Fin 64) (y : Fin 32) : Bool := d[y][x]

/-- `disp[x][y] <- disp[x][y] XOR 1` (R102). -/
def Display.flip (d : Display) (x : Fin 64) (y : Fin 32) : Display := d.set y (d[y].set x (!d[y][x]))

/-- All pixels 0 (R101). -/
def Display.blank : Display := Vector.replicate 32 (Vector.replicate 64 false)

/-- Column offset c of a sprite row drawn from column x0: R99's wrap. -/
def wrapX (x0 c : Nat) : Fin 64 := Fin.ofNat 64 (x0 + c)

/-- Row offset r of a sprite drawn from row y0: R99's wrap. -/
def wrapY (y0 r : Nat) : Fin 32 := Fin.ofNat 32 (y0 + r)

/-- Column offset c of sprite byte b is bit 7 − c (R100; decision D5, PRESUMED, log entry 12). -/
def spriteBit (b : Byte) (c : Nat) : Bool := b.getLsbD (7 - c)

/-- Draw one pixel of a sprite row: the display and "some set pixel was turned off" (R102). -/
def drawBit (b : Byte) (x0 : Nat) (y : Fin 32) (acc : Display × Bool) (c : Nat) : Display × Bool :=
  if spriteBit b c then (acc.1.flip (wrapX x0 c) y, acc.2 || acc.1.pixel (wrapX x0 c) y) else acc

/-- Draw one sprite row, columns 0..7 (R102). -/
def drawRow (b : Byte) (x0 : Nat) (y : Fin 32) (acc : Display × Bool) : Display × Bool :=
  (List.range 8).foldl (drawBit b x0 y) acc

/-- Draw sprite rows from row offset r on (R102). -/
def drawRows (x0 y0 : Nat) : Nat → List Byte → Display × Bool → Display × Bool
  | _, [], acc => acc
  | r, b :: bs, acc => drawRows x0 y0 (r + 1) bs (drawRow b x0 (wrapY y0 r) acc)

/-- CLS (00E0), R101; it sets Draw-Dirty (decision D6, log entry 13). -/
def execCls (s : State) : Host.Outcome State Fault Refusal :=
  .next { s.advance with disp := Display.blank, dirty := true }

/-- DRW Vx, Vy, n (DXYN), R102: the origin is read before VF is written, VF ends as the collision flag (decision D4,
log entry 11), and Draw-Dirty is set even when no pixel changes (R103). -/
def execDrw (x y n : Nibble) (s : State) : Host.Outcome State Fault Refusal :=
  let drawn :=
    drawRows (s.getV x).toNat (s.getV y).toNat 0 (s.readBytes (s.dataAddr 0) n.toNat) (s.disp, false)
  s.guarded (firstFailing checkRead (s.dataAddr 0) n.toNat)
    { s.advance.setV flagReg (flagByte drawn.2) with disp := drawn.1, dirty := true }

end Sys2Proof.Machine
end

