-- ==== Sys2Proof/Machine/IndexMemory.lean ====
section
/-! DEFINITION. The address register and memory transfer (43_index_memory.md). Every address is checked before any
state changes; no instruction here changes I as a side effect (R21, R98). -/

namespace Sys2Proof.Machine

/-- LD I, nnn (ANNN), R92. -/
def execLdI (nnn : Addr12) (s : State) : Host.Outcome State Fault Refusal :=
  .next { s.advance with i := addrWord nnn }

/-- ADD I, Vx (FX1E), R93: 16-bit wrap, no flag. -/
def execAddI (x : Nibble) (s : State) : Host.Outcome State Fault Refusal :=
  .next { s.advance with i := s.i + (s.getV x).setWidth 16 }

/-- LD F, Vx (FX29), R94: V[X] is not masked to a digit. -/
def execLdF (x : Nibble) (s : State) : Host.Outcome State Fault Refusal :=
  .next { s.advance with i := (s.getV x).setWidth 16 * 5 }

/-- LD B, Vx (FX33), R95. -/
def execLdB (x : Nibble) (s : State) : Host.Outcome State Fault Refusal :=
  s.guarded (firstFailing checkWrite (s.dataAddr 0) 3) (s.advance.storeBytes (s.dataAddr 0) (bcdBytes (s.getV x)))

/-- LD [I], Vx (FX55), R96. -/
def execStRegs (x : Nibble) (s : State) : Host.Outcome State Fault Refusal :=
  s.guarded (firstFailing checkWrite (s.dataAddr 0) (x.toNat + 1)) (s.advance.storeBytes (s.dataAddr 0) (s.regBytes x))

/-- LD Vx, [I] (FX65), R97. -/
def execLdRegs (x : Nibble) (s : State) : Host.Outcome State Fault Refusal :=
  s.guarded (firstFailing checkRead (s.dataAddr 0) (x.toNat + 1)) (s.advance.loadRegs (s.dataAddr 0) (x.toNat + 1))

end Sys2Proof.Machine
end

