-- ==== Sys2Proof/Machine/RegisterAlu.lean ====
section
/-! DEFINITION. Register loads, arithmetic and logic (42_register_alu.md). None of these can fault. -/

namespace Sys2Proof.Machine

/-- LD Vx, kk (6XKK), R79. -/
def execLdK (x : Nibble) (kk : Byte) (s : State) : Host.Outcome State Fault Refusal :=
  .next (s.advance.setV x kk)

/-- ADD Vx, kk (7XKK), R80: wraps, no flag. -/
def execAddK (x : Nibble) (kk : Byte) (s : State) : Host.Outcome State Fault Refusal :=
  .next (s.advance.setV x (s.getV x + kk))

/-- LD Vx, Vy (8XY0), R81. -/
def execLdV (x y : Nibble) (s : State) : Host.Outcome State Fault Refusal :=
  .next (s.advance.setV x (s.getV y))

/-- OR Vx, Vy (8XY1), R82. -/
def execOr (x y : Nibble) (s : State) : Host.Outcome State Fault Refusal :=
  .next (s.advance.setV x (s.getV x ||| s.getV y))

/-- AND Vx, Vy (8XY2), R83. -/
def execAnd (x y : Nibble) (s : State) : Host.Outcome State Fault Refusal :=
  .next (s.advance.setV x (s.getV x &&& s.getV y))

/-- XOR Vx, Vy (8XY3), R84. -/
def execXor (x y : Nibble) (s : State) : Host.Outcome State Fault Refusal :=
  .next (s.advance.setV x (s.getV x ^^^ s.getV y))

/-- ADD Vx, Vy (8XY4), R85. -/
def execAddV (x y : Nibble) (s : State) : Host.Outcome State Fault Refusal :=
  .next (s.advance.resultThenFlag x (s.getV x + s.getV y) (carryFlag (s.getV x) (s.getV y)))

/-- SUB Vx, Vy (8XY5), R86. -/
def execSub (x y : Nibble) (s : State) : Host.Outcome State Fault Refusal :=
  .next (s.advance.flagAndResult x (greaterFlag (s.getV x) (s.getV y)) fun t => t.getV x - t.getV y)

/-- SHR Vx (8XY6), R87. -/
def execShr (x _y : Nibble) (s : State) : Host.Outcome State Fault Refusal :=
  .next (s.advance.flagAndResult x (lsbFlag (s.getV x)) fun t => t.getV x >>> 1)

/-- SUBN Vx, Vy (8XY7), R88. -/
def execSubn (x y : Nibble) (s : State) : Host.Outcome State Fault Refusal :=
  .next (s.advance.flagAndResult x (greaterFlag (s.getV y) (s.getV x)) fun t => t.getV y - t.getV x)

/-- SHL Vx (8XYE), R89: the flag is the LEAST-significant bit; the bit shifted out is lost. -/
def execShl (x _y : Nibble) (s : State) : Host.Outcome State Fault Refusal :=
  .next (s.advance.flagAndResult x (lsbFlag (s.getV x)) fun t => t.getV x <<< 1)

/-- RND Vx, kk (CXKK), R90: one byte is drawn whatever kk is. -/
def execRnd (x : Nibble) (kk : Byte) (s : State) : Host.Outcome State Fault Refusal :=
  let (r, t) := s.advance.randomByte
  .next (t.setV x (r &&& kk))

end Sys2Proof.Machine
end

