-- ==== Sys2Proof/Machine/TimersInput.lean ====
section
/-! DEFINITION. Timer and input instructions (45_timers_input.md). -/

namespace Sys2Proof.Machine

/-- SKP Vx (EX9E), R105; an index above 0xF takes KeyIndexFault (R104; decision D11, log entry 17). -/
def execSkp (x : Nibble) (s : State) : Host.Outcome State Fault Refusal :=
  match keyIndex (s.getV x) with
  | none => s.takeFault (.keyIndexFault (s.getV x))
  | some k => .next (s.advance.skipIf s.key[k])

/-- SKNP Vx (EXA1), R106; an index above 0xF takes KeyIndexFault (R104). -/
def execSknp (x : Nibble) (s : State) : Host.Outcome State Fault Refusal :=
  match keyIndex (s.getV x) with
  | none => s.takeFault (.keyIndexFault (s.getV x))
  | some k => .next (s.advance.skipIf (!s.key[k]))

/-- LD Vx, DT (FX07), R107. -/
def execLdVDt (x : Nibble) (s : State) : Host.Outcome State Fault Refusal :=
  .next (s.advance.setV x s.dt)

/-- LD Vx, K (FX0A), R108: the wait starts; V[X] is written by a later step (R109). -/
def execLdVK (x : Nibble) (s : State) : Host.Outcome State Fault Refusal :=
  .next { s.advance with waiting := true, waitReg := x }

/-- LD DT, Vx (FX15), R110. -/
def execLdDtV (x : Nibble) (s : State) : Host.Outcome State Fault Refusal :=
  .next { s.advance with dt := s.getV x }

/-- LD ST, Vx (FX18), R111. -/
def execLdStV (x : Nibble) (s : State) : Host.Outcome State Fault Refusal :=
  .next { s.advance with st := s.getV x }

end Sys2Proof.Machine
end

