-- ==== Sys2Proof/Machine/Dispatch.lean ====
section
/-! DEFINITION. One arm per instruction of the opcode map (30_encoding.md R58): the instruction's execution from the
state at the start of the step, pre-advance included (log entry 27). -/

namespace Sys2Proof.Machine

def exec (i : Instr) (s : State) : Host.Outcome State Fault Refusal :=
  match i with
  | .cls => Sys2Proof.Machine.execCls s
  | .ret => Sys2Proof.Machine.execRet s
  | .jp nnn => Sys2Proof.Machine.execJp nnn s
  | .call nnn => Sys2Proof.Machine.execCall nnn s
  | .seK x kk => Sys2Proof.Machine.execSeK x kk s
  | .sneK x kk => Sys2Proof.Machine.execSneK x kk s
  | .seV x y => Sys2Proof.Machine.execSeV x y s
  | .ldK x kk => Sys2Proof.Machine.execLdK x kk s
  | .addK x kk => Sys2Proof.Machine.execAddK x kk s
  | .ldV x y => Sys2Proof.Machine.execLdV x y s
  | .orV x y => Sys2Proof.Machine.execOr x y s
  | .andV x y => Sys2Proof.Machine.execAnd x y s
  | .xorV x y => Sys2Proof.Machine.execXor x y s
  | .addV x y => Sys2Proof.Machine.execAddV x y s
  | .sub x y => Sys2Proof.Machine.execSub x y s
  | .shr x y => Sys2Proof.Machine.execShr x y s
  | .subn x y => Sys2Proof.Machine.execSubn x y s
  | .shl x y => Sys2Proof.Machine.execShl x y s
  | .sneV x y => Sys2Proof.Machine.execSneV x y s
  | .ldI nnn => Sys2Proof.Machine.execLdI nnn s
  | .jpV0 nnn => Sys2Proof.Machine.execJpV0 nnn s
  | .rnd x kk => Sys2Proof.Machine.execRnd x kk s
  | .drw x y n => Sys2Proof.Machine.execDrw x y n s
  | .skp x => Sys2Proof.Machine.execSkp x s
  | .sknp x => Sys2Proof.Machine.execSknp x s
  | .ldVDt x => Sys2Proof.Machine.execLdVDt x s
  | .ldVK x => Sys2Proof.Machine.execLdVK x s
  | .ldDtV x => Sys2Proof.Machine.execLdDtV x s
  | .ldStV x => Sys2Proof.Machine.execLdStV x s
  | .addI x => Sys2Proof.Machine.execAddI x s
  | .ldF x => Sys2Proof.Machine.execLdF x s
  | .ldB x => Sys2Proof.Machine.execLdB x s
  | .stRegs x => Sys2Proof.Machine.execStRegs x s
  | .ldRegs x => Sys2Proof.Machine.execLdRegs x s

end Sys2Proof.Machine
end

