-- ==== Sys2Proof/Machine/Step.lean ====
section
/-! DEFINITION. One `step` transaction (30_encoding.md R64), in the order of events of R119; and the placement of one
instruction word where the next step fetches it. -/

namespace Sys2Proof.Machine

/-- Execute a decoded word: an instruction's rule, or NOP, whose only effect is `pc <- pc + 2` (R60, R64). -/
def execDecoded (d : Decoded) (s : State) : Host.Outcome State Fault Refusal :=
  match d with
  | .instr i => exec i s
  | .nop _ => .next s.advance

/-- Fetch, decode and execute one word; a fetch beyond memory takes its fault (R64). -/
def cycle (s : State) : Host.Outcome State Fault Refusal :=
  match s.fetchWord with
  | .error f => s.takeFault f
  | .ok w => execDecoded (decodeWord s.params.laxDecode w) s

/-- What follows a key-wait step or a cycle in the same step: the tick of TIMER_COUPLING = PerStep (R125). -/
def finish (o : Host.Outcome State Fault Refusal) : Host.Outcome State Fault Refusal :=
  match o with
  | .next t => .next t.endStep
  | .fault f => .fault f
  | .refused r => .refused r

/-- `step()` (R64): a faulted core changes nothing (R121); a waiting core makes a key-wait step (R109); else one cycle. -/
def step (s : State) : Host.Outcome State Fault Refusal :=
  match s.fault with
  | some _ => .next s
  | none => if s.waiting then finish (.next s.keyWaitStep) else finish (cycle s)

/-- `s` with the word of an opcode-table row stored big-endian at pc, where the next step fetches it, and with neither a
fault nor a key wait in its way (R64, R119; log entry 23). No fetch succeeds at a pc above 0xFFE, so there it only
clears the two. It stands for the host's `load` of a program (R144). -/
def State.withFetchWord (s : State) (nbits w : Nat) : State :=
  { s.storeBytes s.pc.toNat (bytesOfWord (tableWord nbits w)) with fault := none, waiting := false }

end Sys2Proof.Machine
end

