-- ==== Sys2Proof/Machine/HostPort.lean ====
section
/-! DEFINITION. The host's transactions other than `step` (60_exceptions.md R129 to R137; 70_reset_and_hazards.md R142
to R145), and the result a `step` returns (30_encoding.md R64). -/

namespace Sys2Proof.Machine

/-- `construct()` (R130, R142): a new core in the reset state, with the parameters the model is given (R10). -/
def construct (p : Params) : State := { State.reset with params := p }

/-- What `load` answers (R144). ProgramTooLarge is a result of `load` and no core fault (R116). -/
inductive LoadResult where
  | ok (s : State)
  | programTooLarge (length : Nat)
  deriving DecidableEq, Repr

/-- `load(program_bytes)` (R144): all or nothing. The host calls it at most once, after `construct` and before the first
step (R138; decision D20, log entry 23); `boot` is that use of it. -/
def State.load (s : State) (image : List Byte) : LoadResult :=
  if image.length > progMax then .programTooLarge image.length else .ok (s.storeBytes progBase image)

/-- `construct()`, then `load` once (R145). Loading the empty image is the same as not loading. -/
def boot (p : Params) (image : List Byte) : LoadResult := (construct p).load image

/-- `set_key(k, p)` (R133); it changes nothing in a faulted core (R121). -/
def State.setKey (s : State) (k : Nibble) (p : Bool) : State :=
  if s.fault.isSome then s else { s with key := s.key.set k.toNat p k.isLt }

/-- `clear_dirty()` (R135); it changes nothing in a faulted core (R121). -/
def State.clearDirty (s : State) : State := if s.fault.isSome then s else { s with dirty := false }

/-- `read_display()` (R134): bit index y × 64 + x holds disp[x][y]. -/
def State.readDisplay (s : State) : List Bool := s.disp.toList.flatMap Vector.toList

/-- `sound_active = (ST > 0)` (R126). -/
def State.soundActive (s : State) : Bool := decide (s.st.toNat > 0)

/-- The numeric code of a fault's kind (R112; decision D10, log entry 16). -/
def Fault.code : Fault → Nat
  | .memoryFault _ _ _ => 1
  | .stackFault _ _ => 2
  | .keyIndexFault _ => 3

/-- What `step()` returns (R64). -/
inductive StepResult where
  | ok
  | stalled
  | faulted (f : Fault)
  deriving DecidableEq, Repr

/-- The result of the step that led from `s` to `t`: Faulted with the recorded fault; Stalled for a key wait that goes
on; else Ok (R64, R109, R120, R121; decision D26, log entry 31). -/
def stepReport (s t : State) : StepResult :=
  match t.fault with
  | some f => .faulted f
  | none => if s.waiting && t.waiting then .stalled else .ok

end Sys2Proof.Machine
end

