-- ==== Sys2Proof/Machine/Transactions.lean ====
section
/-! DEFINITION. The host's transactions as data, one at a time and in any order (60_exceptions.md R129, R138): what each
does to the core and what it returns. -/

namespace Sys2Proof.Machine

/-- The transactions a host may make of a booted core (R129). `construct` and `load` come before them, in `boot`. -/
inductive Transaction where
  | step
  | tickTimers
  | setKey (k : Nibble) (p : Bool)
  | readDisplay
  | readDirty
  | clearDirty
  | readTimers
  | readFault
  deriving DecidableEq, Repr

/-- The core after a transaction (R129's column "core state it may change"). -/
def transact (x : Transaction) (s : State) : Host.Outcome State Fault Refusal :=
  match x with
  | .step => Sys2Proof.Machine.step s
  | .tickTimers => .next s.tickTimers
  | .setKey k p => .next (s.setKey k p)
  | .readDisplay => .next s
  | .readDirty => .next s
  | .clearDirty => .next s.clearDirty
  | .readTimers => .next s
  | .readFault => .next s

/-- What a transaction returns to the host (R129's column "core returns"). -/
inductive Response where
  | nothing
  | stepped (r : StepResult)
  | display (pixels : List Bool)
  | dirty (d : Bool)
  | timers (dt st : Byte) (soundActive : Bool)
  | fault (f : Option Fault)
  deriving DecidableEq, Repr

/-- The response to the transaction that led from `s` to `t`. -/
def response (x : Transaction) (s t : State) : Response :=
  match x with
  | .step => .stepped (stepReport s t)
  | .tickTimers => .nothing
  | .setKey _ _ => .nothing
  | .readDisplay => .display s.readDisplay
  | .readDirty => .dirty s.dirty
  | .clearDirty => .nothing
  | .readTimers => .timers s.dt s.st s.soundActive
  | .readFault => .fault s.fault

/-- The host's duty under PerStep: it does not call `tick_timers` (R125; log entry 30). -/
def Transaction.permitted (p : Params) (x : Transaction) : Bool :=
  match x with
  | .tickTimers => p.timerCoupling == .decoupled
  | _ => true

/-- A run: transactions one after another, each complete before the next begins (R47, R138). -/
def runHost : List Transaction → State → Host.Outcome State Fault Refusal
  | [], s => .next s
  | x :: xs, s =>
    match transact x s with
    | .next t => runHost xs t
    | .fault f => .fault f
    | .refused r => .refused r

end Sys2Proof.Machine
end

