-- ==== Sys2Proof/Safety.lean ====
section
/-! DEFINITION. The terms the claims use: frames, the invariant of the machine, legal fault records, and the
register-writer and sprite relations of the spec. None of them is used by the machine. -/

namespace Sys2Proof.Machine

/-! ## Frames -/

/-- The pieces of state a frame can name. -/
inductive Part where
  | mem | v | i | pc | stack | sp | dt | st | disp | key | waiting | waitReg | dirty | fault | rng | params
  deriving DecidableEq, Repr

/-- A piece of state reads in `t` as it does in `s`. Memory is compared byte by byte and registers one by one. -/
def samePart (p : Part) (s t : State) : Prop :=
  match p with
  | .mem => ∀ a, t.byteAt a = s.byteAt a
  | .v => ∀ r, t.getV r = s.getV r
  | .i => t.i = s.i
  | .pc => t.pc = s.pc
  | .stack => t.stack = s.stack
  | .sp => t.sp = s.sp
  | .dt => t.dt = s.dt
  | .st => t.st = s.st
  | .disp => t.disp = s.disp
  | .key => t.key = s.key
  | .waiting => t.waiting = s.waiting
  | .waitReg => t.waitReg = s.waitReg
  | .dirty => t.dirty = s.dirty
  | .fault => t.fault = s.fault
  | .rng => t.rng = s.rng
  | .params => t.params = s.params

/-- Every piece of state outside `changed` is unchanged. -/
def KeepsAllBut (changed : List Part) (s t : State) : Prop := ∀ p, p ∉ changed → samePart p s t

/-- Every register but the ones listed is unchanged. -/
def KeepsRegsBut (changed : List Nibble) (s t : State) : Prop := ∀ r, r ∉ changed → t.getV r = s.getV r

/-! ## The invariant -/

/-- R112's table: which info a fault record of each kind can hold. -/
def Fault.legal : Fault → Prop
  | .memoryFault a .fetch .outOfRange => 0xFFF ≤ a ∧ a ≤ 0xFFFF
  | .memoryFault a .read .outOfRange => 0xFFF < a ∧ a ≤ 0xFFFF
  | .memoryFault a .write .outOfRange => 0xFFF < a ∧ a ≤ 0xFFFF
  | .memoryFault a .write .fontProtected => a ≤ 0x04F
  | .memoryFault _ .fetch .fontProtected => False
  | .memoryFault _ .read .fontProtected => False
  | .stackFault .overflow sp => sp.val = 16
  | .stackFault .underflow sp => sp.val = 0
  | .keyIndexFault b => 0x10 ≤ b.toNat

/-- What holds in every state the core can reach. -/
structure Inv (s : State) : Prop where
  /-- memory is in its canonical form, all of it below 0x1000 (log entry 1) -/
  memoryCanonical : Memory.wf s.params.font s.mem = true
  /-- the font region still holds FONT (R35, R39) -/
  fontIntact : ∀ a, a < fontSize → s.byteAt a = unlistedByte s.params.font a
  /-- pc is at most 0x10FE (R22, R32) -/
  pcReach : s.pc.toNat ≤ 0x10FE
  /-- every return address in use is 0x002 to 0x1000 (R68) -/
  returnsReach : ∀ (k : Nat) (h : k < 16), k < s.sp.val → 2 ≤ s.stack[k].toNat ∧ s.stack[k].toNat ≤ 0x1000
  /-- a recorded fault is one R112 allows -/
  faultLegal : ∀ f, s.fault = some f → f.legal

/-! ## Relations of the spec -/

/-- A word is an encoding of an instruction under both values of LAX_DECODE (R58, R59). -/
def Encodes (w : Word) (i : Instr) : Prop := ∀ lax, decodeWord lax w = .instr i

/-- R18 and R20: the registers an instruction may write in its own step, VF as a side effect included. -/
def writesReg (i : Instr) (r : Nibble) : Bool :=
  match i with
  | .ldK x _ | .addK x _ | .ldV x _ | .orV x _ | .andV x _ | .xorV x _ | .rnd x _ | .ldVDt x => r == x
  | .addV x _ | .sub x _ | .shr x _ | .subn x _ | .shl x _ => r == x || r == 0xF
  | .drw _ _ _ => r == 0xF
  | .ldRegs x => decide (r.toNat ≤ x.toNat)
  | .cls | .ret | .jp _ | .call _ | .seK _ _ | .sneK _ _ | .seV _ _ | .sneV _ _ | .ldI _ | .jpV0 _ | .skp _ | .sknp _
  | .ldVK _ | .ldDtV _ | .ldStV _ | .addI _ | .ldF _ | .ldB _ | .stRegs _ => false

/-- R99 and R100 in closed form: whether the sprite of n rows at I, drawn from (x0, y0), has a set bit on pixel
(px, py). The column offset c and row offset r that land there are unique; bit 7 − c of row r decides. -/
def spriteCovers (s : State) (x0 y0 n : Nat) (px : Fin 64) (py : Fin 32) : Bool :=
  let c := (px.val + 64 - x0 % 64) % 64
  let r := (py.val + 32 - y0 % 32) % 32
  decide (c < 8) && decide (r < n) && (s.byteAt (s.i.toNat + r)).getLsbD (7 - c)

/-- The byte at an address after a store at I .. I + last: the stored byte of its offset inside that range, else the byte
of before (R50). -/
def overlaid (s : State) (last : Nat) (stored : Nat → Byte) (a : Nat) : Byte :=
  if s.dataAddr 0 ≤ a ∧ a ≤ s.dataAddr last then stored (a - s.dataAddr 0) else s.byteAt a

/-- R112: the out-of-range address a data access reports, I itself when it is out of range, else 0x1000. -/
def dataFaultAddr (s : State) : Nat := if s.i.toNat > 0xFFF then s.i.toNat else 0x1000

end Sys2Proof.Machine
end

