-- ==== Sys2Proof/Certificates/Slice0/Obligations.lean ====
section
/-! DEFINITION. The statements for the provers, in the order of the spec's files: decoding, the step, faults, the key
wait, the invariant, whole-machine rules, the instructions family by family, the host's transactions. A statement
about an instruction's result has the completion of the instruction as its conclusion, for every operand, and its
frame. "Spec decision D<n>" names an entry of spec/92_eei_decisions.md, the spec's own choice. -/

open Sys2Proof Sys2Proof.Machine

/-! ## Decoding and encoding -/

/-- Decoding what `encode` writes gives the instruction back, with every operand, under both values of LAX_DECODE, and
whatever bytes follow. -/
def Obligations.DecodeOfEncodeIsTheInstruction : Prop :=
  ∀ (lax : Bool) (i : Instr) (rest : List Byte), i.wellFormed = true →
    decodeWord lax (encode i) = .instr i ∧
    decodeBytes lax (bytesOfWord (encode i) ++ rest) = .ok (.instr i, rest)

/-- Strict decode reads an instruction from no word but its own encoding: no fixed digit is skipped. Rests on spec
decision D2 (log entry 9). -/
def Obligations.StrictDecodeReadsOnlyEncodings : Prop :=
  ∀ (w : Word) (i : Instr), decodeWord false w = .instr i → encode i = w

/-- The NOP words of strict decode are the ones R60 lists, family by family (spec decision D2, log entry 9). -/
def Obligations.NopWordsAreTheWordsOutsideTheMap : Prop :=
  ∀ w : Word,
    let op := w.toNat / 0x1000
    let n := w.toNat % 0x10
    let kk := w.toNat % 0x100
    decodeWord false w = .nop w ↔
      (op = 0x0 ∧ w ≠ 0x00E0 ∧ w ≠ 0x00EE) ∨
      ((op = 0x5 ∨ op = 0x9) ∧ n ≠ 0) ∨
      (op = 0x8 ∧ n ∈ [0x8, 0x9, 0xA, 0xB, 0xC, 0xD, 0xF]) ∨
      (op = 0xE ∧ kk ∉ [0x9E, 0xA1]) ∨
      (op = 0xF ∧ kk ∉ [0x07, 0x0A, 0x15, 0x18, 0x1E, 0x29, 0x33, 0x55, 0x65])

/-- LAX_DECODE = true, the other reading of §4.2: family 0x0 selects on KK alone, families 0x5 and 0x9 ignore N, every
other family decodes as in strict decode (R59; spec decision D2, log entry 9). -/
def Obligations.LaxDecodeWidensOnlyThreeFamilies : Prop :=
  ∀ w : Word,
    let op := w.toNat / 0x1000
    let x := BitVec.ofNat 4 (w.toNat / 0x100)
    let y := BitVec.ofNat 4 (w.toNat / 0x10)
    let kk := w.toNat % 0x100
    (op ≠ 0x0 → op ≠ 0x5 → op ≠ 0x9 → decodeWord true w = decodeWord false w) ∧
    (op = 0x0 → kk = 0xE0 → decodeWord true w = .instr .cls) ∧
    (op = 0x0 → kk = 0xEE → decodeWord true w = .instr .ret) ∧
    (op = 0x0 → kk ≠ 0xE0 → kk ≠ 0xEE → decodeWord true w = .nop w) ∧
    (op = 0x5 → decodeWord true w = .instr (.seV x y)) ∧
    (op = 0x9 → decodeWord true w = .instr (.sneV x y))

/-- Words written out from the encodings of R58, at least one for each of the 16 families, decode to the instruction they
stand for. That 0x01E0 is a NOP in strict decode and CLS in lax decode is spec decision D2 (log entry 9). -/
def Obligations.SampleWordsDecodeAsTheSpecWritesThem : Prop :=
  decodeWord false 0x00E0 = .instr .cls ∧
  decodeWord false 0x00EE = .instr .ret ∧
  decodeWord false 0x1ABC = .instr (.jp 0xABC) ∧
  decodeWord false 0x2ABC = .instr (.call 0xABC) ∧
  decodeWord false 0x3542 = .instr (.seK 5 0x42) ∧
  decodeWord false 0x4542 = .instr (.sneK 5 0x42) ∧
  decodeWord false 0x5120 = .instr (.seV 1 2) ∧
  decodeWord false 0x6A12 = .instr (.ldK 0xA 0x12) ∧
  decodeWord false 0x7FFE = .instr (.addK 0xF 0xFE) ∧
  decodeWord false 0x8AB5 = .instr (.sub 0xA 0xB) ∧
  decodeWord false 0x9120 = .instr (.sneV 1 2) ∧
  decodeWord false 0xA208 = .instr (.ldI 0x208) ∧
  decodeWord false 0xBFFE = .instr (.jpV0 0xFFE) ∧
  decodeWord false 0xC30F = .instr (.rnd 3 0x0F) ∧
  decodeWord false 0xD125 = .instr (.drw 1 2 5) ∧
  decodeWord false 0xE0A1 = .instr (.sknp 0) ∧
  decodeWord false 0xF155 = .instr (.stRegs 1) ∧
  decodeWord false 0x01E0 = .nop 0x01E0 ∧
  decodeWord true 0x01E0 = .instr .cls

/-! ## The step -/

/-- When the core is neither faulted nor waiting and the two bytes at pc decode to an instruction, the step is that
instruction's execution, followed under PerStep by one tick. The tick, and its place after the instruction, are spec
decision D14 and the spec's own assumption N14 (log entry 20). -/
def Obligations.StepRunsTheDecodedInstruction : Prop :=
  ∀ (s t : State) (i : Instr), s.fault = none → s.waiting = false → s.pc.toNat ≤ 0xFFE →
    decodeWord s.params.laxDecode (wordOfBytes (s.byteAt s.pc.toNat) (s.byteAt (s.pc.toNat + 1))) = .instr i →
    exec i s = .next t →
    step s = .next (match s.params.timerCoupling with
      | .decoupled => t
      | .perStep => t.tickTimers)

/-- A NOP word only advances pc by 2; the timers move only under PerStep, by its tick, which is spec decision D14 (log
entry 20). -/
def Obligations.NopWordOnlyAdvancesPc : Prop :=
  ∀ (s : State) (w : Word), s.fault = none → s.waiting = false → s.pc.toNat ≤ 0xFFE →
    decodeWord s.params.laxDecode (wordOfBytes (s.byteAt s.pc.toNat) (s.byteAt (s.pc.toNat + 1))) = .nop w →
    ∃ t, step s = .next t ∧ t.pc = s.pc + 2 ∧ KeepsAllBut [.pc, .dt, .st] s t ∧ stepReport s t = .ok ∧
      (s.params.timerCoupling = .decoupled → t.dt = s.dt ∧ t.st = s.st) ∧
      (s.params.timerCoupling = .perStep → t.dt = s.tickTimers.dt ∧ t.st = s.tickTimers.st)

/-- The fetch reads the word big-endian at any pc up to 0xFFE, odd ones and the font region included; beyond it the
step records MemoryFault(pc, Fetch, OutOfRange) and changes nothing else (R40, R41; spec decisions D18, D19, log
entries 16 and 22). -/
def Obligations.FetchIsBigEndianAndFaultsBeyondMemory : Prop :=
  ∀ s : State,
    (s.pc.toNat ≤ 0xFFE → ∃ w : Word, s.fetchWord = .ok w ∧
      w.toNat = 0x100 * (s.byteAt s.pc.toNat).toNat + (s.byteAt (s.pc.toNat + 1)).toNat) ∧
    (0xFFF ≤ s.pc.toNat → s.fault = none → s.waiting = false →
      step s = .next { s with fault := some (.memoryFault s.pc.toNat .fetch .outOfRange) })

/-- R66 and R119: every step answers a next state, and it is one of five outcomes, taken in this order: the core had
faulted; a key-wait step; a fetch fault; an instruction's own fault; an instruction or NOP that completes. The report
is Faulted, Ok or Stalled accordingly. Rests on spec decisions D9, D13, D26 (log entries 7, 8, 19, 31), and the fetch
fault's record on D19 (log entry 16). -/
def Obligations.StepHasExactlyFiveOutcomes : Prop :=
  ∀ s : State, ∃ t, step s = .next t ∧
    match s.fault with
    | some f => t = s ∧ stepReport s t = .faulted f
    | none =>
      if s.waiting then
        t.fault = none ∧ stepReport s t = if s.key.toList.any id then .ok else .stalled
      else if 0xFFE < s.pc.toNat then
        t = { s with fault := some (.memoryFault s.pc.toNat .fetch .outOfRange) } ∧
        stepReport s t = .faulted (.memoryFault s.pc.toNat .fetch .outOfRange)
      else
        (t.fault = none ∧ stepReport s t = .ok) ∨
        (∃ f, t = { s with fault := some f } ∧ stepReport s t = .faulted f)

/-- R119, R120: a fault an instruction raises is precise, changing nothing but the fault record, so pc stays at the
instruction; and each instruction raises faults of at most one kind. Every other instruction never faults. Rests on
spec decision D9 (log entries 7 and 8); the clauses on D7 (FontProtected), D8 (no wrap), D11 (KeyIndexFault) and D10
and D27 (the record and its address) (log entries 14, 15, 16, 17). -/
def Obligations.InstructionFaultsArePreciseAndOfOneKind : Prop :=
  ∀ (i : Instr) (s t : State), s.fault = none → exec i s = .next t → ∀ f, t.fault = some f →
    t = { s with fault := some f } ∧
    match i with
    | .call _ => f = .stackFault .overflow 16
    | .ret => f = .stackFault .underflow 0
    | .skp x => f = .keyIndexFault (s.getV x)
    | .sknp x => f = .keyIndexFault (s.getV x)
    | .drw _ _ _ => f = .memoryFault (dataFaultAddr s) .read .outOfRange
    | .ldRegs _ => f = .memoryFault (dataFaultAddr s) .read .outOfRange
    | .ldB _ => f = .memoryFault s.i.toNat .write .fontProtected ∨
        f = .memoryFault (dataFaultAddr s) .write .outOfRange
    | .stRegs _ => f = .memoryFault s.i.toNat .write .fontProtected ∨
        f = .memoryFault (dataFaultAddr s) .write .outOfRange
    | _ => False

/-- R121: the faulted state is absorbing. No run of transactions changes a faulted core in any way, every step returns
the same fault, and the reads still answer. Rests on spec decision D9 (log entry 8). -/
def Obligations.FaultedCoreIsAbsorbing : Prop :=
  ∀ (s : State) (f : Fault), s.fault = some f →
    (∀ xs, runHost xs s = .next s) ∧
    response .step s s = .stepped (.faulted f) ∧
    response .readFault s s = .fault (some f) ∧
    response .readDisplay s s = .display s.readDisplay ∧
    response .readDirty s s = .dirty s.dirty ∧
    response .readTimers s s = .timers s.dt s.st s.soundActive

/-- R109: the step of a waiting core. With no key pressed it is Stalled and changes nothing; else the lowest pressed
index goes to V[wait_reg], the wait ends, and no instruction is fetched (pc, I, memory and the rest stay). Under
PerStep the step also ticks, with or without a key. Rests on spec decisions D12, D13 and, for PerStep, D14 (log
entries 18, 19 and 20). -/
def Obligations.WaitingCoreTakesTheLowestPressedKey : Prop :=
  ∀ s : State, s.fault = none → s.waiting = true →
    ((∀ k : Fin 16, s.key[k] = false) →
      ∃ t, step s = .next t ∧ KeepsAllBut [.dt, .st] s t ∧ stepReport s t = .stalled ∧
        (s.params.timerCoupling = .decoupled → t = s) ∧
        (s.params.timerCoupling = .perStep → t.dt = s.tickTimers.dt ∧ t.st = s.tickTimers.st)) ∧
    (∀ k : Fin 16, s.key[k] = true → (∀ j : Fin 16, j < k → s.key[j] = false) →
      ∃ t, step s = .next t ∧ (t.getV s.waitReg).toNat = k.val ∧ t.waiting = false ∧
        KeepsRegsBut [s.waitReg] s t ∧ KeepsAllBut [.v, .waiting, .dt, .st] s t ∧ stepReport s t = .ok ∧
        (s.params.timerCoupling = .decoupled → t.dt = s.dt ∧ t.st = s.st) ∧
        (s.params.timerCoupling = .perStep → t.dt = s.tickTimers.dt ∧ t.st = s.tickTimers.st))

/-- R125: under PerStep a step that did not find the core faulted does what the Decoupled step does and then the body
of `tick_timers`, which a step that faulted skips. The instructions themselves do not see the coupling. Rests on spec
decision D14 and on the spec's own assumption of where the tick falls (N14; log entry 20). It compares two runs under
the same random draws, which is the model's choice (log entry 4). -/
def Obligations.PerStepIsTheDecoupledStepAndThenATick : Prop :=
  ∀ s t : State, s.params.timerCoupling = .perStep →
    step { s with params := { s.params with timerCoupling := .decoupled } } = .next t →
    step s = .next (State.tickTimers { t with params := s.params })

/-! ## The invariant -/

/-- The reset state meets the invariant. -/
def Obligations.ResetMeetsTheInvariant : Prop := Inv State.reset

/-- Every step keeps the invariant, from every state that meets it: memory canonical, the font intact, pc at most
0x10FE, return addresses 0x002–0x1000, legal fault records. -/
def Obligations.EveryStepKeepsTheInvariant : Prop :=
  ∀ s t : State, Inv s → step s = .next t → Inv t

/-- Whatever the parameters and the program image, every run of host transactions after `boot`, in any order and
number, answers a next state, which meets the invariant. The runs include `tick_timers` under PerStep, which the host's
duty forbids and to which the model gives its R124 effect (log entry 30), and ones that go on after a fault (spec
decision D9, log entry 8). -/
def Obligations.EveryHostRunAfterBootKeepsTheInvariant : Prop :=
  ∀ (p : Params) (image : List Byte) (s : State), boot p image = .ok s →
    ∀ xs : List Transaction, ∃ t, runHost xs s = .next t ∧ Inv t

/-! ## Rules over all instructions -/

/-- R34, R39, R43: only FX33 and FX55 store to memory, within I .. I + 2 and I .. I + X, and never outside
0x050–0xFFF, so the font region never changes (spec decision D7, log entry 14). -/
def Obligations.OnlyTwoInstructionsStoreToMemory : Prop :=
  ∀ (i : Instr) (s t : State), exec i s = .next t → ∀ a, t.byteAt a ≠ s.byteAt a →
    0x050 ≤ a ∧ a ≤ 0xFFF ∧ s.dataAddr 0 ≤ a ∧
    ((∃ x, i = .ldB x ∧ a ≤ s.dataAddr 2) ∨ (∃ x : Nibble, i = .stRegs x ∧ a ≤ s.dataAddr x.toNat))

/-- R21 to R32: I, the stack, sp, DT, ST, the display, Draw-Dirty, the key wait and the generator are written only by
the instructions named for them; keys and parameters by none; Draw-Dirty is never cleared; and, when nothing faults, pc
leaves the next address only in jumps, calls, returns and skips. 00E0 as a writer of Draw-Dirty is spec decision D6. -/
def Obligations.SpecialStateHasOnlyItsWriters : Prop :=
  ∀ (i : Instr) (s t : State), exec i s = .next t →
    (t.i ≠ s.i → (∃ nnn, i = .ldI nnn) ∨ (∃ x, i = .addI x) ∨ (∃ x, i = .ldF x)) ∧
    (t.stack ≠ s.stack → ∃ nnn, i = .call nnn) ∧
    (t.sp ≠ s.sp → (∃ nnn, i = .call nnn) ∨ i = .ret) ∧
    (t.dt ≠ s.dt → ∃ x, i = .ldDtV x) ∧
    (t.st ≠ s.st → ∃ x, i = .ldStV x) ∧
    (t.disp ≠ s.disp → i = .cls ∨ ∃ x y n, i = .drw x y n) ∧
    (t.dirty ≠ s.dirty → i = .cls ∨ ∃ x y n, i = .drw x y n) ∧
    (s.dirty = true → t.dirty = true) ∧
    (t.waiting ≠ s.waiting → ∃ x, i = .ldVK x) ∧
    (t.waitReg ≠ s.waitReg → ∃ x, i = .ldVK x) ∧
    (t.rng ≠ s.rng → ∃ x kk, i = .rnd x kk) ∧
    t.key = s.key ∧ t.params = s.params ∧
    (s.fault = none → t.fault = none → t.pc ≠ s.pc + 2 →
      (∃ nnn, i = .jp nnn ∨ i = .call nnn ∨ i = .jpV0 nnn) ∨ i = .ret ∨
      (∃ x kk, i = .seK x kk ∨ i = .sneK x kk) ∨ (∃ x y, i = .seV x y ∨ i = .sneV x y) ∨
      (∃ x, i = .skp x ∨ i = .sknp x))

/-- R18, R20: an instruction writes no register but its destinations and, for the six flag-writing ones, VF. -/
def Obligations.OnlyDestinationAndFlagRegistersChange : Prop :=
  ∀ (i : Instr) (s t : State), exec i s = .next t → ∀ r, t.getV r ≠ s.getV r → writesReg i r = true

/-- R66: the key states decide nothing but EX9E, EXA1 and the key wait: every other instruction does the same whatever
the keys are. It compares two runs under the same random draws, which is the model's choice (spec decision D15 leaves
the draws open; log entry 4). -/
def Obligations.OnlyTwoInstructionsReadTheKeys : Prop :=
  ∀ (i : Instr) (s t : State) (keys : Vector Bool 16), (∀ x, i ≠ .skp x) → (∀ x, i ≠ .sknp x) →
    exec i s = .next t → exec i { s with key := keys } = .next { t with key := keys }

/-! ## Control flow -/

/-- JP nnn (R69): pc becomes NNN, odd or even, and nothing else changes. A jump to its own address changes nothing, so
it repeats for ever; after a jump to 0xFFF, the one target above 0xFFE, the next fetch is a MemoryFault. -/
def Obligations.JumpGoesToItsAddress : Prop :=
  ∀ (s : State) (nnn : Addr12),
    Encodes (0x1#4 ++ nnn) (.jp nnn) ∧
    ∃ t, exec (.jp nnn) s = .next t ∧ t.pc.toNat = nnn.toNat ∧ KeepsAllBut [.pc] s t ∧
      (s.pc.toNat = nnn.toNat → t = s) ∧
      (0xFFE < nnn.toNat → ∃ a r, t.fetchWord = .error (.memoryFault a .fetch r))

/-- JP V0, nnn (R75): pc becomes NNN + V[0], never taken mod 2^12, and the offset register is V0 whatever NNN is. A
target above 0xFFE faults at the next fetch (spec decision D19, log entry 16). -/
def Obligations.JumpWithOffsetAddsVZero : Prop :=
  ∀ (s : State) (nnn : Addr12),
    Encodes (0xB#4 ++ nnn) (.jpV0 nnn) ∧
    ∃ t, exec (.jpV0 nnn) s = .next t ∧ t.pc.toNat = nnn.toNat + (s.getV 0).toNat ∧ KeepsAllBut [.pc] s t ∧
      (s.fault = none → s.waiting = false → 0xFFF ≤ t.pc.toNat →
        step t = .next { t with fault := some (.memoryFault t.pc.toNat .fetch .outOfRange) })

/-- CALL nnn (R70): with fewer than 16 entries in use the address after the call is pushed and pc becomes NNN; with 16
in use it takes StackFault(Overflow, 16) and nothing else changes. Rests on spec decisions D9 and D17 (log entries 8
and 21). -/
def Obligations.CallPushesTheReturnAddress : Prop :=
  ∀ (s : State) (nnn : Addr12),
    Encodes (0x2#4 ++ nnn) (.call nnn) ∧
    (∀ h : s.sp.val < 16, ∃ t, exec (.call nnn) s = .next t ∧ t.pc.toNat = nnn.toNat ∧
      t.sp.val = s.sp.val + 1 ∧ t.stack[s.sp.val] = s.pc + 2 ∧
      (∀ (k : Nat) (hk : k < 16), k ≠ s.sp.val → t.stack[k] = s.stack[k]) ∧ KeepsAllBut [.pc, .sp, .stack] s t) ∧
    (s.sp.val = 16 → exec (.call nnn) s = .next { s with fault := some (.stackFault .overflow 16) })

/-- RET (R68): with an entry in use, sp drops by 1, pc becomes the entry, and the stack keeps its contents; with none it
takes StackFault(Underflow, 0) and nothing else changes. Rests on spec decisions D9 and D17 (log entries 8 and 21). -/
def Obligations.ReturnPopsIntoPc : Prop :=
  ∀ s : State,
    Encodes 0x00EE .ret ∧
    (∀ (k : Nat) (hk : k < 16), s.sp.val = k + 1 →
      ∃ t, exec .ret s = .next t ∧ t.pc = s.stack[k] ∧ t.sp.val = k ∧ KeepsAllBut [.pc, .sp] s t) ∧
    (s.sp.val = 0 → exec .ret s = .next { s with fault := some (.stackFault .underflow 0) })

/-- A CALL and then a RET come back to the word after the CALL with sp as before, and save or restore nothing else
(R68, R70, R76). -/
def Obligations.ReturnUndoesCall : Prop :=
  ∀ (s t : State) (nnn : Addr12), s.sp.val < 16 → exec (.call nnn) s = .next t →
    ∃ u, exec .ret t = .next u ∧ u.pc = s.pc + 2 ∧ u.sp = s.sp ∧ KeepsAllBut [.pc, .stack] s u

/-- SE and SNE with an immediate (R71, R72) and with a register (R73, R74): pc moves by 4 when the condition holds and
by 2 when it does not, and nothing else changes. -/
def Obligations.SkipsMoveOverOneWord : Prop :=
  ∀ (s : State) (x y : Nibble) (kk : Byte),
    Encodes (0x3#4 ++ x ++ kk) (.seK x kk) ∧ Encodes (0x4#4 ++ x ++ kk) (.sneK x kk) ∧
    Encodes (0x5#4 ++ x ++ y ++ 0x0#4) (.seV x y) ∧ Encodes (0x9#4 ++ x ++ y ++ 0x0#4) (.sneV x y) ∧
    (∃ t, exec (.seK x kk) s = .next t ∧ KeepsAllBut [.pc] s t ∧
      t.pc = if (s.getV x).toNat = kk.toNat then s.pc + 4 else s.pc + 2) ∧
    (∃ t, exec (.sneK x kk) s = .next t ∧ KeepsAllBut [.pc] s t ∧
      t.pc = if (s.getV x).toNat = kk.toNat then s.pc + 2 else s.pc + 4) ∧
    (∃ t, exec (.seV x y) s = .next t ∧ KeepsAllBut [.pc] s t ∧
      t.pc = if (s.getV x).toNat = (s.getV y).toNat then s.pc + 4 else s.pc + 2) ∧
    (∃ t, exec (.sneV x y) s = .next t ∧ KeepsAllBut [.pc] s t ∧
      t.pc = if (s.getV x).toNat = (s.getV y).toNat then s.pc + 2 else s.pc + 4)

/-! ## Register loads and arithmetic -/

/-- LD Vx, kk and ADD Vx, kk (R79, R80): the register takes KK, or its sum with KK mod 256; no flag, so every other
register, VF included, is unchanged. -/
def Obligations.ImmediateLoadAndAdd : Prop :=
  ∀ (s : State) (x : Nibble) (kk : Byte),
    Encodes (0x6#4 ++ x ++ kk) (.ldK x kk) ∧ Encodes (0x7#4 ++ x ++ kk) (.addK x kk) ∧
    (∃ t, exec (.ldK x kk) s = .next t ∧ t.getV x = kk ∧ t.pc = s.pc + 2 ∧
      KeepsRegsBut [x] s t ∧ KeepsAllBut [.v, .pc] s t) ∧
    (∃ t, exec (.addK x kk) s = .next t ∧ (t.getV x).toNat = ((s.getV x).toNat + kk.toNat) % 256 ∧
      t.pc = s.pc + 2 ∧ KeepsRegsBut [x] s t ∧ KeepsAllBut [.v, .pc] s t)

/-- LD, OR, AND, XOR Vx, Vy (R81 to R84), bit by bit: VF is not reset, so it changes only as V[X]. -/
def Obligations.CopyAndLogicWriteOnlyTheirDestination : Prop :=
  ∀ (s : State) (x y : Nibble),
    Encodes (0x8#4 ++ x ++ y ++ 0x0#4) (.ldV x y) ∧ Encodes (0x8#4 ++ x ++ y ++ 0x1#4) (.orV x y) ∧
    Encodes (0x8#4 ++ x ++ y ++ 0x2#4) (.andV x y) ∧ Encodes (0x8#4 ++ x ++ y ++ 0x3#4) (.xorV x y) ∧
    (∃ t, exec (.ldV x y) s = .next t ∧ t.getV x = s.getV y ∧ t.pc = s.pc + 2 ∧
      KeepsRegsBut [x] s t ∧ KeepsAllBut [.v, .pc] s t) ∧
    (∃ t, exec (.orV x y) s = .next t ∧
      (∀ n, (t.getV x).getLsbD n = ((s.getV x).getLsbD n || (s.getV y).getLsbD n)) ∧ t.pc = s.pc + 2 ∧
      KeepsRegsBut [x] s t ∧ KeepsAllBut [.v, .pc] s t) ∧
    (∃ t, exec (.andV x y) s = .next t ∧
      (∀ n, (t.getV x).getLsbD n = ((s.getV x).getLsbD n && (s.getV y).getLsbD n)) ∧ t.pc = s.pc + 2 ∧
      KeepsRegsBut [x] s t ∧ KeepsAllBut [.v, .pc] s t) ∧
    (∃ t, exec (.xorV x y) s = .next t ∧
      (∀ n, (t.getV x).getLsbD n = ((s.getV x).getLsbD n != (s.getV y).getLsbD n)) ∧ t.pc = s.pc + 2 ∧
      KeepsRegsBut [x] s t ∧ KeepsAllBut [.v, .pc] s t)

/-- ADD Vx, Vy (R85): VF ends as the carry, for every X and Y and under both FLAG_ORDERs; V[X] takes the sum mod 256,
which is lost when X = 0xF. -/
def Obligations.AddWritesSumAndCarry : Prop :=
  ∀ (s : State) (x y : Nibble),
    let sum := (s.getV x).toNat + (s.getV y).toNat
    Encodes (0x8#4 ++ x ++ y ++ 0x4#4) (.addV x y) ∧
    ∃ t, exec (.addV x y) s = .next t ∧ t.pc = s.pc + 2 ∧
      (x ≠ 0xF → (t.getV x).toNat = sum % 256) ∧ (t.getV 0xF).toNat = (if sum > 255 then 1 else 0) ∧
      KeepsRegsBut [x, 0xF] s t ∧ KeepsAllBut [.v, .pc] s t

/-- SUB Vx, Vy (R86), every case of X or Y being 0xF under both FLAG_ORDERs: the flag is 1 exactly when V[X] > V[Y]
before the operation. The cases with X or Y = 0xF rest on spec decision D3 (log entry 10). -/
def Obligations.SubtractWritesDifferenceAndFlag : Prop :=
  ∀ (s : State) (x y : Nibble),
    let a := (s.getV x).toNat
    let b := (s.getV y).toNat
    let f := if a > b then 1 else 0
    Encodes (0x8#4 ++ x ++ y ++ 0x5#4) (.sub x y) ∧
    ∃ t, exec (.sub x y) s = .next t ∧ t.pc = s.pc + 2 ∧ KeepsRegsBut [x, 0xF] s t ∧ KeepsAllBut [.v, .pc] s t ∧
      (x ≠ 0xF → y ≠ 0xF → (t.getV x).toNat = (a + 256 - b) % 256 ∧ (t.getV 0xF).toNat = f) ∧
      (x = 0xF → y ≠ 0xF → s.params.flagOrder = .asListed → (t.getV 0xF).toNat = (f + 256 - b) % 256) ∧
      (x = 0xF → y ≠ 0xF → s.params.flagOrder = .flagLast → (t.getV 0xF).toNat = f) ∧
      (x ≠ 0xF → y = 0xF → s.params.flagOrder = .asListed →
        (t.getV x).toNat = (a + 256 - f) % 256 ∧ (t.getV 0xF).toNat = f) ∧
      (x ≠ 0xF → y = 0xF → s.params.flagOrder = .flagLast →
        (t.getV x).toNat = (a + 256 - b) % 256 ∧ (t.getV 0xF).toNat = f) ∧
      (x = 0xF → y = 0xF → (t.getV 0xF).toNat = 0)

/-- SHR Vx (R87): V[X] is halved, bit 7 becomes 0, VF is the old bit 0, and Y is ignored. The case X = 0xF rests on
spec decision D3 (log entry 10): 0 under AsListed, the bit under FlagLast. -/
def Obligations.ShiftRightReportsTheLowBit : Prop :=
  ∀ (s : State) (x y : Nibble),
    let a := (s.getV x).toNat
    Encodes (0x8#4 ++ x ++ y ++ 0x6#4) (.shr x y) ∧
    ∃ t, exec (.shr x y) s = .next t ∧ t.pc = s.pc + 2 ∧ KeepsRegsBut [x, 0xF] s t ∧ KeepsAllBut [.v, .pc] s t ∧
      (x ≠ 0xF → (t.getV x).toNat = a / 2 ∧ (t.getV 0xF).toNat = a % 2) ∧
      (x = 0xF → s.params.flagOrder = .asListed → (t.getV 0xF).toNat = 0) ∧
      (x = 0xF → s.params.flagOrder = .flagLast → (t.getV 0xF).toNat = a % 2)

/-- SUBN Vx, Vy (R88), the reverse subtraction, every case of X or Y being 0xF under both FLAG_ORDERs. The cases with
X or Y = 0xF rest on spec decision D3 (log entry 10). -/
def Obligations.ReverseSubtractWritesDifferenceAndFlag : Prop :=
  ∀ (s : State) (x y : Nibble),
    let a := (s.getV x).toNat
    let b := (s.getV y).toNat
    let f := if b > a then 1 else 0
    Encodes (0x8#4 ++ x ++ y ++ 0x7#4) (.subn x y) ∧
    ∃ t, exec (.subn x y) s = .next t ∧ t.pc = s.pc + 2 ∧ KeepsRegsBut [x, 0xF] s t ∧ KeepsAllBut [.v, .pc] s t ∧
      (x ≠ 0xF → y ≠ 0xF → (t.getV x).toNat = (b + 256 - a) % 256 ∧ (t.getV 0xF).toNat = f) ∧
      (x = 0xF → y ≠ 0xF → s.params.flagOrder = .asListed → (t.getV 0xF).toNat = (b + 256 - f) % 256) ∧
      (x = 0xF → y ≠ 0xF → s.params.flagOrder = .flagLast → (t.getV 0xF).toNat = f) ∧
      (x ≠ 0xF → y = 0xF → s.params.flagOrder = .asListed →
        (t.getV x).toNat = (f + 256 - a) % 256 ∧ (t.getV 0xF).toNat = f) ∧
      (x ≠ 0xF → y = 0xF → s.params.flagOrder = .flagLast →
        (t.getV x).toNat = (b + 256 - a) % 256 ∧ (t.getV 0xF).toNat = f) ∧
      (x = 0xF → y = 0xF → (t.getV 0xF).toNat = 0)

/-- SHL Vx (R89): V[X] is doubled mod 256, and VF is the old bit 0, the LEAST-significant bit; Y is ignored. The case
X = 0xF rests on spec decision D3 (log entry 10). -/
def Obligations.ShiftLeftReportsTheLowBit : Prop :=
  ∀ (s : State) (x y : Nibble),
    let a := (s.getV x).toNat
    Encodes (0x8#4 ++ x ++ y ++ 0xE#4) (.shl x y) ∧
    ∃ t, exec (.shl x y) s = .next t ∧ t.pc = s.pc + 2 ∧ KeepsRegsBut [x, 0xF] s t ∧ KeepsAllBut [.v, .pc] s t ∧
      (x ≠ 0xF → (t.getV x).toNat = a * 2 % 256 ∧ (t.getV 0xF).toNat = a % 2) ∧
      (x = 0xF → s.params.flagOrder = .asListed → (t.getV 0xF).toNat = a % 2 * 2) ∧
      (x = 0xF → s.params.flagOrder = .flagLast → (t.getV 0xF).toNat = a % 2)

/-- RND Vx, kk (R90): V[X] takes the drawn byte under the mask KK, so KK = 0x00 gives 0x00, and one byte is drawn
whatever KK is. The form of the draw is the model's choice (spec decision D15 leaves it open; log entry 4): a free value,
the opaque `Config.randomByte` at the state's draw count, which goes up by one. -/
def Obligations.RandomWritesTheMaskedDraw : Prop :=
  ∀ (s : State) (x : Nibble) (kk : Byte),
    Encodes (0xC#4 ++ x ++ kk) (.rnd x kk) ∧
    ∃ t, exec (.rnd x kk) s = .next t ∧
      (∀ n, (t.getV x).getLsbD n = ((Config.randomByte s.rng).getLsbD n && kk.getLsbD n)) ∧
      (kk = 0 → t.getV x = 0) ∧ t.rng = s.rng + 1 ∧ t.pc = s.pc + 2 ∧
      KeepsRegsBut [x] s t ∧ KeepsAllBut [.v, .pc, .rng] s t

/-- R78: FLAG_ORDER makes no difference, for any instruction, but in 8XY5 and 8XY7 with X or Y = 0xF and in 8XY6
and 8XYE, which do not read Y, with X = 0xF (spec decision D3, log entry 10). It compares two runs under the same
random draws, which is the model's choice (spec decision D15; log entry 4). -/
def Obligations.FlagOrderShowsOnlyWhenVfIsAnOperand : Prop :=
  ∀ (i : Instr) (s t : State),
    (∀ x y, i = .sub x y ∨ i = .subn x y → x ≠ 0xF ∧ y ≠ 0xF) →
    (∀ x y, i = .shr x y ∨ i = .shl x y → x ≠ 0xF) →
    exec i { s with params := { s.params with flagOrder := .asListed } } = .next t →
    exec i { s with params := { s.params with flagOrder := .flagLast } } =
      .next { t with params := { s.params with flagOrder := .flagLast } }

/-! ## The address register and memory -/

/-- LD I, nnn, ADD I, Vx and LD F, Vx (R92 to R94): I takes NNN, its sum with V[X] mod 65536, or V[X] × 5 unmasked;
VF is not written, and nothing faults. -/
def Obligations.AddressRegisterInstructions : Prop :=
  ∀ (s : State) (x : Nibble) (nnn : Addr12),
    Encodes (0xA#4 ++ nnn) (.ldI nnn) ∧ Encodes (0xF#4 ++ x ++ 0x1E#8) (.addI x) ∧
    Encodes (0xF#4 ++ x ++ 0x29#8) (.ldF x) ∧
    (∃ t, exec (.ldI nnn) s = .next t ∧ t.i.toNat = nnn.toNat ∧ t.pc = s.pc + 2 ∧ KeepsAllBut [.i, .pc] s t) ∧
    (∃ t, exec (.addI x) s = .next t ∧ t.i.toNat = (s.i.toNat + (s.getV x).toNat) % 65536 ∧ t.pc = s.pc + 2 ∧
      KeepsAllBut [.i, .pc] s t) ∧
    (∃ t, exec (.ldF x) s = .next t ∧ t.i.toNat = (s.getV x).toNat * 5 ∧ t.pc = s.pc + 2 ∧
      KeepsAllBut [.i, .pc] s t)

/-- LD B, Vx (R95): the three decimal digits go to I, I + 1, I + 2, hundreds first, every other byte and I unchanged; a
failing address takes MemoryFault at the lowest failing offset and writes nothing. The fault clauses rest on spec
decisions D7, D8, D9, D27 (log entries 8, 14, 15, 16). -/
def Obligations.DecimalDigitsAreStoredOrNothingIs : Prop :=
  ∀ (s : State) (x : Nibble),
    Encodes (0xF#4 ++ x ++ 0x33#8) (.ldB x) ∧
    (0x050 ≤ s.dataAddr 0 → s.dataAddr 2 ≤ 0xFFF →
      ∃ t, exec (.ldB x) s = .next t ∧ (t.byteAt (s.dataAddr 0)).toNat = (s.getV x).toNat / 100 ∧
        (t.byteAt (s.dataAddr 1)).toNat = (s.getV x).toNat / 10 % 10 ∧
        (t.byteAt (s.dataAddr 2)).toNat = (s.getV x).toNat % 10 ∧
        (∀ a, ¬(s.dataAddr 0 ≤ a ∧ a ≤ s.dataAddr 2) → t.byteAt a = s.byteAt a) ∧
        t.pc = s.pc + 2 ∧ KeepsAllBut [.mem, .pc] s t) ∧
    (s.dataAddr 0 ≤ 0x04F →
      exec (.ldB x) s = .next { s with fault := some (.memoryFault s.i.toNat .write .fontProtected) }) ∧
    (0xFFF < s.dataAddr 2 →
      exec (.ldB x) s = .next { s with fault := some (.memoryFault (dataFaultAddr s) .write .outOfRange) })

/-- LD [I], Vx (R96): V[0] .. V[X] go to I .. I + X in order, every other byte, I and every register unchanged; a
failing address takes MemoryFault at the lowest failing offset and writes nothing. The fault clauses rest on spec
decisions D7, D8, D9, D27 (log entries 8, 14, 15, 16). -/
def Obligations.RegistersAreStoredOrNothingIs : Prop :=
  ∀ (s : State) (x : Nibble),
    Encodes (0xF#4 ++ x ++ 0x55#8) (.stRegs x) ∧
    (0x050 ≤ s.dataAddr 0 → s.dataAddr x.toNat ≤ 0xFFF →
      ∃ t, exec (.stRegs x) s = .next t ∧
        (∀ k : Nibble, k.toNat ≤ x.toNat → t.byteAt (s.dataAddr k.toNat) = s.getV k) ∧
        (∀ a, ¬(s.dataAddr 0 ≤ a ∧ a ≤ s.dataAddr x.toNat) → t.byteAt a = s.byteAt a) ∧
        t.pc = s.pc + 2 ∧ KeepsAllBut [.mem, .pc] s t) ∧
    (s.dataAddr 0 ≤ 0x04F →
      exec (.stRegs x) s = .next { s with fault := some (.memoryFault s.i.toNat .write .fontProtected) }) ∧
    (0xFFF < s.dataAddr x.toNat →
      exec (.stRegs x) s = .next { s with fault := some (.memoryFault (dataFaultAddr s) .write .outOfRange) })

/-- LD Vx, [I] (R97): V[0] .. V[X] take the bytes at I .. I + X, the font region allowed, every other register, I and
memory unchanged; an address above 0xFFF takes MemoryFault at the lowest failing offset and writes no register. The
fault clause rests on spec decisions D8, D9, D27 (log entries 8, 15, 16). -/
def Obligations.RegistersAreLoadedOrNoneIs : Prop :=
  ∀ (s : State) (x : Nibble),
    Encodes (0xF#4 ++ x ++ 0x65#8) (.ldRegs x) ∧
    (s.dataAddr x.toNat ≤ 0xFFF →
      ∃ t, exec (.ldRegs x) s = .next t ∧
        (∀ k : Nibble, t.getV k = if k.toNat ≤ x.toNat then s.byteAt (s.dataAddr k.toNat) else s.getV k) ∧
        t.pc = s.pc + 2 ∧ KeepsAllBut [.v, .pc] s t) ∧
    (0xFFF < s.dataAddr x.toNat →
      exec (.ldRegs x) s = .next { s with fault := some (.memoryFault (dataFaultAddr s) .read .outOfRange) })

/-- R97's round trip: after FX55, an FX65 with the same I and X brings V[0] .. V[X] back, whatever the registers held
in between, as long as I and the stored bytes are unchanged. -/
def Obligations.StoreThenLoadRestoresRegisters : Prop :=
  ∀ (s t u : State) (x : Nibble), 0x050 ≤ s.dataAddr 0 → s.dataAddr x.toNat ≤ 0xFFF →
    exec (.stRegs x) s = .next t → u.i = s.i →
    (∀ a, s.dataAddr 0 ≤ a → a ≤ s.dataAddr x.toNat → u.byteAt a = t.byteAt a) →
    ∃ w, exec (.ldRegs x) u = .next w ∧
      ∀ k : Nibble, w.getV k = if k.toNat ≤ x.toNat then s.getV k else u.getV k

/-- R50, R148: a byte stored by FX33 or FX55 is what a later fetch reads. In any state that still has the memory the
store left, the fetched word takes each of its two bytes from the store, where the store wrote it, and else from the
memory before: words inside the stored range, across either end of it, and outside it. -/
def Obligations.FetchSeesStoredBytes : Prop :=
  ∀ (s t u : State) (x : Nibble), 0x050 ≤ s.dataAddr 0 → (∀ a, u.byteAt a = t.byteAt a) → u.pc.toNat ≤ 0xFFE →
    (s.dataAddr 2 ≤ 0xFFF → exec (.ldB x) s = .next t →
      let seen := overlaid s 2 fun k => BitVec.ofNat 8 ((s.getV x).toNat / 10 ^ (2 - k) % 10)
      u.fetchWord = .ok (wordOfBytes (seen u.pc.toNat) (seen (u.pc.toNat + 1)))) ∧
    (s.dataAddr x.toNat ≤ 0xFFF → exec (.stRegs x) s = .next t →
      let seen := overlaid s x.toNat fun k => s.getV (BitVec.ofNat 4 k)
      u.fetchWord = .ok (wordOfBytes (seen u.pc.toNat) (seen (u.pc.toNat + 1))))

/-! ## The display -/

/-- CLS (R101): every pixel becomes 0, VF and every other register unchanged; Draw-Dirty is set by spec decision D6 (log
entry 13). -/
def Obligations.ClearBlanksEveryPixel : Prop :=
  ∀ s : State, Encodes 0x00E0 .cls ∧
    ∃ t, exec .cls s = .next t ∧ (∀ px py, t.disp.pixel px py = false) ∧ t.dirty = true ∧ t.pc = s.pc + 2 ∧
      KeepsAllBut [.disp, .dirty, .pc] s t

/-- DRW Vx, Vy, n (R99, R100, R102, R103) in closed form: every pixel is XORed with the sprite bit that wraps onto it;
VF ends as 1 exactly when a set pixel was turned off; Draw-Dirty is set, for N = 0 too. An address above 0xFFF takes
MemoryFault and draws nothing. Rests on spec decisions D4, D5 (PRESUMED), D8, D9, D27 (log entries 8, 11, 12, 15, 16). -/
def Obligations.DrawXorsTheWrappedSprite : Prop :=
  ∀ (s : State) (x y n : Nibble),
    let covers := spriteCovers s (s.getV x).toNat (s.getV y).toNat n.toNat
    Encodes (0xD#4 ++ x ++ y ++ n) (.drw x y n) ∧
    (s.dataAddr n.toNat ≤ 0x1000 ∨ n = 0 →
      ∃ t, exec (.drw x y n) s = .next t ∧
        (∀ px py, t.disp.pixel px py = (s.disp.pixel px py != covers px py)) ∧
        ((∃ px py, covers px py = true ∧ s.disp.pixel px py = true) → t.getV 0xF = 1) ∧
        ((∀ px py, covers px py = true → s.disp.pixel px py = false) → t.getV 0xF = 0) ∧
        t.dirty = true ∧ t.pc = s.pc + 2 ∧ KeepsRegsBut [0xF] s t ∧ KeepsAllBut [.v, .disp, .dirty, .pc] s t) ∧
    (n ≠ 0 → 0x1000 < s.dataAddr n.toNat →
      exec (.drw x y n) s = .next { s with fault := some (.memoryFault (dataFaultAddr s) .read .outOfRange) })

/-- The source's two-draw property (95_test_vectors.md E7): drawing a sprite where its pixels are blank gives VF = 0, and
drawing it again at the same place turns every pixel back off, with VF = 1 when the sprite has a set bit at all. -/
def Obligations.DrawingTwiceRestoresTheDisplay : Prop :=
  ∀ (s t : State) (x y n : Nibble), x ≠ 0xF → y ≠ 0xF → s.dataAddr n.toNat ≤ 0x1000 ∨ n = 0 →
    let covers := spriteCovers s (s.getV x).toNat (s.getV y).toNat n.toNat
    (∀ px py, covers px py = true → s.disp.pixel px py = false) →
    exec (.drw x y n) s = .next t →
    t.getV 0xF = 0 ∧
    ∃ u, exec (.drw x y n) t = .next u ∧ u.disp = s.disp ∧
      ((∃ px py, covers px py = true) → u.getV 0xF = 1) ∧
      ((∀ px py, covers px py = false) → u.getV 0xF = 0)

/-! ## Timers and input -/

/-- SKP Vx and SKNP Vx (R105, R106): with V[X] at most 0xF, pc moves by 4 when the key is pressed (or not pressed) and
else by 2; above 0xF, KeyIndexFault(V[X]) by spec decision D11 (R104; log entry 17), and nothing else changes. -/
def Obligations.KeySkipsReadTheNamedKey : Prop :=
  ∀ (s : State) (x : Nibble),
    Encodes (0xE#4 ++ x ++ 0x9E#8) (.skp x) ∧ Encodes (0xE#4 ++ x ++ 0xA1#8) (.sknp x) ∧
    (∀ k : Fin 16, (s.getV x).toNat = k.val →
      (∃ t, exec (.skp x) s = .next t ∧ KeepsAllBut [.pc] s t ∧
        t.pc = if s.key[k] = true then s.pc + 4 else s.pc + 2) ∧
      (∃ t, exec (.sknp x) s = .next t ∧ KeepsAllBut [.pc] s t ∧
        t.pc = if s.key[k] = true then s.pc + 2 else s.pc + 4)) ∧
    (0xF < (s.getV x).toNat →
      exec (.skp x) s = .next { s with fault := some (.keyIndexFault (s.getV x)) } ∧
      exec (.sknp x) s = .next { s with fault := some (.keyIndexFault (s.getV x)) })

/-- LD DT, Vx and LD ST, Vx (R110, R111) and LD Vx, DT (R107): the timer takes V[X], or V[X] takes DT, which the read
does not change; V[X] = 0 silences the sound and V[X] = 1 gives one tick of it. -/
def Obligations.TimerLoadsAndReads : Prop :=
  ∀ (s : State) (x : Nibble),
    Encodes (0xF#4 ++ x ++ 0x15#8) (.ldDtV x) ∧ Encodes (0xF#4 ++ x ++ 0x18#8) (.ldStV x) ∧
    Encodes (0xF#4 ++ x ++ 0x07#8) (.ldVDt x) ∧
    (∃ t, exec (.ldDtV x) s = .next t ∧ t.dt = s.getV x ∧ t.pc = s.pc + 2 ∧ KeepsAllBut [.dt, .pc] s t) ∧
    (∃ t, exec (.ldStV x) s = .next t ∧ t.st = s.getV x ∧ t.pc = s.pc + 2 ∧ KeepsAllBut [.st, .pc] s t ∧
      (t.soundActive = true ↔ s.getV x ≠ 0) ∧
      (s.fault = none → s.getV x = 1 → t.tickTimers.soundActive = false)) ∧
    (∃ t, exec (.ldVDt x) s = .next t ∧ t.getV x = s.dt ∧ t.pc = s.pc + 2 ∧
      KeepsRegsBut [x] s t ∧ KeepsAllBut [.v, .pc] s t)

/-- LD Vx, K (R108): the wait starts with target X and pc at the next word; no register is written in this step, even
if a key is pressed. -/
def Obligations.KeyWaitStartsWithoutWriting : Prop :=
  ∀ (s : State) (x : Nibble),
    Encodes (0xF#4 ++ x ++ 0x0A#8) (.ldVK x) ∧
    ∃ t, exec (.ldVK x) s = .next t ∧ t.waiting = true ∧ t.waitReg = x ∧ t.pc = s.pc + 2 ∧
      KeepsAllBut [.waiting, .waitReg, .pc] s t

/-! ## The host's transactions -/

/-- `tick_timers()` (R124): each timer drops by 1, floored at 0, also during a key wait; nothing else changes. In a
faulted core nothing changes (R121; spec decision D9, log entry 8). -/
def Obligations.TickDecrementsBothTimersFlooredAtZero : Prop :=
  ∀ s : State,
    (s.fault = none → s.tickTimers.dt.toNat = s.dt.toNat - 1 ∧ s.tickTimers.st.toNat = s.st.toNat - 1 ∧
      KeepsAllBut [.dt, .st] s s.tickTimers) ∧
    (s.fault ≠ none → s.tickTimers = s)

/-- `construct(); load(b)` (R116, R144): up to 0xE00 bytes go to 0x200 and up, and every other byte keeps its reset
content; a longer image is ProgramTooLarge and there is nothing loaded. Rests on spec decision D20 for load being
called once (log entry 23). -/
def Obligations.LoadPlacesTheImageOrRejectsIt : Prop :=
  ∀ (p : Params) (image : List Byte),
    (image.length ≤ 0xE00 → ∃ s, boot p image = .ok s ∧
      (∀ (k : Nat) (h : k < image.length), s.byteAt (0x200 + k) = image[k]) ∧
      (∀ a, ¬(0x200 ≤ a ∧ a < 0x200 + image.length) → s.byteAt a = (construct p).byteAt a) ∧
      KeepsAllBut [.mem] (construct p) s) ∧
    (0xE00 < image.length → boot p image = .programTooLarge image.length)

/-- `construct()` (R33, R142, R143): memory is FONT, glyph d at 5 × d, and zero elsewhere, and pc is 0x200, from the
source; every other value is spec decision D16 (log entry 3). The draw count is the model's own (log entry 5) and is not
stated. -/
def Obligations.ConstructLeavesTheResetState : Prop :=
  ∀ p : Params,
    (∀ (d : Fin 16) (k : Fin 5), (construct p).byteAt (5 * d.val + k.val) = p.font[d][k]) ∧
    (∀ a, 0x050 ≤ a → (construct p).byteAt a = 0) ∧
    (construct p).pc = 0x200 ∧ (∀ r, (construct p).getV r = 0) ∧ (construct p).i = 0 ∧
    (∀ k : Fin 16, (construct p).stack[k] = 0) ∧ (construct p).sp = 0 ∧ (construct p).dt = 0 ∧
    (construct p).st = 0 ∧ (∀ px py, (construct p).disp.pixel px py = false) ∧
    (∀ k : Fin 16, (construct p).key[k] = false) ∧ (construct p).waiting = false ∧ (construct p).waitReg = 0 ∧
    (construct p).dirty = false ∧ (construct p).fault = none ∧ (construct p).params = p ∧
    State.reset = construct defaultParams

/-- `read_display()` (R134): 2048 bits, bit y × 64 + x holding disp[x][y], and the core unchanged. -/
def Obligations.ReadDisplayIsRowMajor : Prop :=
  ∀ s : State, transact .readDisplay s = .next s ∧
    ∃ bits, response .readDisplay s s = .display bits ∧ bits.length = 2048 ∧
      ∀ (px : Fin 64) (py : Fin 32), bits[py.val * 64 + px.val]? = some (s.disp.pixel px py)

/-- `set_key`, `clear_dirty`, `read_dirty`, `read_timers` and `read_fault` of a core that has not faulted (R126, R133,
R135, R136, R137): one key, or Draw-Dirty, changes and nothing else; the reads change nothing and return `dirty`, DT, ST
and sound_active = (ST > 0), and None. Rests on spec decisions D9, D23, D26 (log entries 8, 25, 31). -/
def Obligations.HostWritesOneKeyOrClearsDirty : Prop :=
  ∀ (s : State) (k : Nibble) (p : Bool), s.fault = none →
    (∃ t, transact (.setKey k p) s = .next t ∧
      (∀ j : Fin 16, t.key[j] = if j.val = k.toNat then p else s.key[j]) ∧ KeepsAllBut [.key] s t) ∧
    (∃ t, transact .clearDirty s = .next t ∧ t.dirty = false ∧ KeepsAllBut [.dirty] s t) ∧
    transact .readDirty s = .next s ∧ response .readDirty s s = .dirty s.dirty ∧
    transact .readTimers s = .next s ∧
    response .readTimers s s = .timers s.dt s.st (decide (0 < s.st.toNat)) ∧
    transact .readFault s = .next s ∧ response .readFault s s = .fault none

/-- The invariant one transaction at a time: every booted core meets it, and every transaction, from every state that
meets it, keeps it. `tick_timers` under PerStep is among them (log entry 30). -/
def Obligations.EveryTransactionKeepsTheInvariant : Prop :=
  (∀ (p : Params) (image : List Byte) (s : State), boot p image = .ok s → Inv s) ∧
  (∀ (x : Transaction) (s t : State), Inv s → transact x s = .next t → Inv t)
end

