-- ==== Sys2Proof/Laws/Decode.lean ====
section
/-! SUPPORT. The fields of a word as numbers, and the fields of a word put together from nibbles (R54). -/

namespace Sys2Proof

theorem fieldOp_toNat (w : Word) : (fieldOp w).toNat = w.toNat / 0x1000 := by
  have := w.isLt
  simp only [fieldOp, BitVec.extractLsb'_toNat, Nat.shiftRight_eq_div_pow]; omega

theorem fieldX_toNat (w : Word) : (fieldX w).toNat = w.toNat / 0x100 % 0x10 := by
  simp only [fieldX, BitVec.extractLsb'_toNat, Nat.shiftRight_eq_div_pow]

theorem fieldY_toNat (w : Word) : (fieldY w).toNat = w.toNat / 0x10 % 0x10 := by
  simp only [fieldY, BitVec.extractLsb'_toNat, Nat.shiftRight_eq_div_pow]

theorem fieldN_toNat (w : Word) : (fieldN w).toNat = w.toNat % 0x10 := by
  simp only [fieldN, BitVec.extractLsb'_toNat, Nat.shiftRight_eq_div_pow]; simp

theorem fieldKK_toNat (w : Word) : (fieldKK w).toNat = w.toNat % 0x100 := by
  simp only [fieldKK, BitVec.extractLsb'_toNat, Nat.shiftRight_eq_div_pow]; simp

theorem fieldNNN_toNat (w : Word) : (fieldNNN w).toNat = w.toNat % 0x1000 := by
  simp only [fieldNNN, BitVec.extractLsb'_toNat, Nat.shiftRight_eq_div_pow]; simp

/-- `a ++ b` as a number. -/
theorem toNat_append_eq {n m : Nat} (a : BitVec n) (b : BitVec m) : (a ++ b).toNat = a.toNat * 2 ^ m + b.toNat := by
  rw [BitVec.toNat_append, ← Nat.shiftLeft_add_eq_or_of_lt b.isLt, Nat.shiftLeft_eq]

/-- Format A as a number (R55). -/
theorem formatA_toNat (a : Nibble) (nnn : Addr12) : (a ++ nnn : Word).toNat = a.toNat * 0x1000 + nnn.toNat :=
  toNat_append_eq a nnn

/-- Formats XK and Xss as a number (R55). -/
theorem formatXK_toNat (a x : Nibble) (kk : Byte) :
    (a ++ x ++ kk : Word).toNat = a.toNat * 0x1000 + x.toNat * 0x100 + kk.toNat := by
  rw [show (a ++ x ++ kk : Word).toNat = (a ++ x).toNat * 2 ^ 8 + kk.toNat from toNat_append_eq (a ++ x) kk,
    toNat_append_eq]; omega

/-- Formats XYs and XYN as a number (R55). -/
theorem formatXYN_toNat (a x y n : Nibble) :
    (a ++ x ++ y ++ n : Word).toNat = a.toNat * 0x1000 + x.toNat * 0x100 + y.toNat * 0x10 + n.toNat := by
  rw [show (a ++ x ++ y ++ n : Word).toNat = (a ++ x ++ y).toNat * 2 ^ 4 + n.toNat from
    toNat_append_eq (a ++ x ++ y) n, toNat_append_eq, toNat_append_eq]; omega

section
variable (a x y n : Nibble) (kk : Byte) (nnn : Addr12)

@[simp] theorem fieldOp_formatA : fieldOp (a ++ nnn : Word) = a := by
  apply BitVec.eq_of_toNat_eq; rw [fieldOp_toNat, formatA_toNat]; omega
@[simp] theorem fieldNNN_formatA : fieldNNN (a ++ nnn : Word) = nnn := by
  apply BitVec.eq_of_toNat_eq; rw [fieldNNN_toNat, formatA_toNat]; omega

@[simp] theorem fieldOp_formatXK : fieldOp (a ++ x ++ kk : Word) = a := by
  apply BitVec.eq_of_toNat_eq; rw [fieldOp_toNat, formatXK_toNat]; omega
@[simp] theorem fieldX_formatXK : fieldX (a ++ x ++ kk : Word) = x := by
  apply BitVec.eq_of_toNat_eq; rw [fieldX_toNat, formatXK_toNat]; omega
@[simp] theorem fieldKK_formatXK : fieldKK (a ++ x ++ kk : Word) = kk := by
  apply BitVec.eq_of_toNat_eq; rw [fieldKK_toNat, formatXK_toNat]; omega

@[simp] theorem fieldOp_formatXYN : fieldOp (a ++ x ++ y ++ n : Word) = a := by
  apply BitVec.eq_of_toNat_eq; rw [fieldOp_toNat, formatXYN_toNat]; omega
@[simp] theorem fieldX_formatXYN : fieldX (a ++ x ++ y ++ n : Word) = x := by
  apply BitVec.eq_of_toNat_eq; rw [fieldX_toNat, formatXYN_toNat]; omega
@[simp] theorem fieldY_formatXYN : fieldY (a ++ x ++ y ++ n : Word) = y := by
  apply BitVec.eq_of_toNat_eq; rw [fieldY_toNat, formatXYN_toNat]; omega
@[simp] theorem fieldN_formatXYN : fieldN (a ++ x ++ y ++ n : Word) = n := by
  apply BitVec.eq_of_toNat_eq; rw [fieldN_toNat, formatXYN_toNat]; omega

end

/-- A word's two bytes in memory order make the word again (R41). -/
theorem wordOfBytes_bytesOfWord (w : Word) :
    wordOfBytes (w.extractLsb' 8 8) (w.extractLsb' 0 8) = w := by
  have := w.isLt
  apply BitVec.eq_of_toNat_eq
  rw [show (wordOfBytes (w.extractLsb' 8 8) (w.extractLsb' 0 8)).toNat = _ from toNat_append_eq _ _]
  simp only [BitVec.extractLsb'_toNat, Nat.shiftRight_eq_div_pow]; omega

end Sys2Proof
end

