-- ==== Sys2Proof/Laws/State.lean ====
section
/-! SUPPORT. What each update of the state leaves and changes, one lemma per field, so that no later proof unfolds a
record update; and reading a register after an update. -/

namespace Sys2Proof.Machine

/-! ### setV -/

@[simp] theorem State.setV_mem (s : State) (x : Nibble) (b : Byte) : (s.setV x b).mem = s.mem := rfl
@[simp] theorem State.setV_i (s : State) (x : Nibble) (b : Byte) : (s.setV x b).i = s.i := rfl
@[simp] theorem State.setV_pc (s : State) (x : Nibble) (b : Byte) : (s.setV x b).pc = s.pc := rfl
@[simp] theorem State.setV_stack (s : State) (x : Nibble) (b : Byte) : (s.setV x b).stack = s.stack := rfl
@[simp] theorem State.setV_sp (s : State) (x : Nibble) (b : Byte) : (s.setV x b).sp = s.sp := rfl
@[simp] theorem State.setV_dt (s : State) (x : Nibble) (b : Byte) : (s.setV x b).dt = s.dt := rfl
@[simp] theorem State.setV_st (s : State) (x : Nibble) (b : Byte) : (s.setV x b).st = s.st := rfl
@[simp] theorem State.setV_disp (s : State) (x : Nibble) (b : Byte) : (s.setV x b).disp = s.disp := rfl
@[simp] theorem State.setV_key (s : State) (x : Nibble) (b : Byte) : (s.setV x b).key = s.key := rfl
@[simp] theorem State.setV_waiting (s : State) (x : Nibble) (b : Byte) : (s.setV x b).waiting = s.waiting := rfl
@[simp] theorem State.setV_waitReg (s : State) (x : Nibble) (b : Byte) : (s.setV x b).waitReg = s.waitReg := rfl
@[simp] theorem State.setV_dirty (s : State) (x : Nibble) (b : Byte) : (s.setV x b).dirty = s.dirty := rfl
@[simp] theorem State.setV_fault (s : State) (x : Nibble) (b : Byte) : (s.setV x b).fault = s.fault := rfl
@[simp] theorem State.setV_rng (s : State) (x : Nibble) (b : Byte) : (s.setV x b).rng = s.rng := rfl
@[simp] theorem State.setV_params (s : State) (x : Nibble) (b : Byte) : (s.setV x b).params = s.params := rfl

/-! ### writeByte -/

@[simp] theorem State.writeByte_v (s : State) (a : Nat) (b : Byte) : (s.writeByte a b).v = s.v := rfl
@[simp] theorem State.writeByte_i (s : State) (a : Nat) (b : Byte) : (s.writeByte a b).i = s.i := rfl
@[simp] theorem State.writeByte_pc (s : State) (a : Nat) (b : Byte) : (s.writeByte a b).pc = s.pc := rfl
@[simp] theorem State.writeByte_stack (s : State) (a : Nat) (b : Byte) : (s.writeByte a b).stack = s.stack := rfl
@[simp] theorem State.writeByte_sp (s : State) (a : Nat) (b : Byte) : (s.writeByte a b).sp = s.sp := rfl
@[simp] theorem State.writeByte_dt (s : State) (a : Nat) (b : Byte) : (s.writeByte a b).dt = s.dt := rfl
@[simp] theorem State.writeByte_st (s : State) (a : Nat) (b : Byte) : (s.writeByte a b).st = s.st := rfl
@[simp] theorem State.writeByte_disp (s : State) (a : Nat) (b : Byte) : (s.writeByte a b).disp = s.disp := rfl
@[simp] theorem State.writeByte_key (s : State) (a : Nat) (b : Byte) : (s.writeByte a b).key = s.key := rfl
@[simp] theorem State.writeByte_waiting (s : State) (a : Nat) (b : Byte) : (s.writeByte a b).waiting = s.waiting := rfl
@[simp] theorem State.writeByte_waitReg (s : State) (a : Nat) (b : Byte) : (s.writeByte a b).waitReg = s.waitReg := rfl
@[simp] theorem State.writeByte_dirty (s : State) (a : Nat) (b : Byte) : (s.writeByte a b).dirty = s.dirty := rfl
@[simp] theorem State.writeByte_fault (s : State) (a : Nat) (b : Byte) : (s.writeByte a b).fault = s.fault := rfl
@[simp] theorem State.writeByte_rng (s : State) (a : Nat) (b : Byte) : (s.writeByte a b).rng = s.rng := rfl
@[simp] theorem State.writeByte_params (s : State) (a : Nat) (b : Byte) : (s.writeByte a b).params = s.params := rfl

/-! ### advance -/

@[simp] theorem State.advance_mem (s : State) : (s.advance).mem = s.mem := rfl
@[simp] theorem State.advance_v (s : State) : (s.advance).v = s.v := rfl
@[simp] theorem State.advance_i (s : State) : (s.advance).i = s.i := rfl
@[simp] theorem State.advance_stack (s : State) : (s.advance).stack = s.stack := rfl
@[simp] theorem State.advance_sp (s : State) : (s.advance).sp = s.sp := rfl
@[simp] theorem State.advance_dt (s : State) : (s.advance).dt = s.dt := rfl
@[simp] theorem State.advance_st (s : State) : (s.advance).st = s.st := rfl
@[simp] theorem State.advance_disp (s : State) : (s.advance).disp = s.disp := rfl
@[simp] theorem State.advance_key (s : State) : (s.advance).key = s.key := rfl
@[simp] theorem State.advance_waiting (s : State) : (s.advance).waiting = s.waiting := rfl
@[simp] theorem State.advance_waitReg (s : State) : (s.advance).waitReg = s.waitReg := rfl
@[simp] theorem State.advance_dirty (s : State) : (s.advance).dirty = s.dirty := rfl
@[simp] theorem State.advance_fault (s : State) : (s.advance).fault = s.fault := rfl
@[simp] theorem State.advance_rng (s : State) : (s.advance).rng = s.rng := rfl
@[simp] theorem State.advance_params (s : State) : (s.advance).params = s.params := rfl

/-! ### jumpTo -/

@[simp] theorem State.jumpTo_mem (s : State) (a : Word) : (s.jumpTo a).mem = s.mem := rfl
@[simp] theorem State.jumpTo_v (s : State) (a : Word) : (s.jumpTo a).v = s.v := rfl
@[simp] theorem State.jumpTo_i (s : State) (a : Word) : (s.jumpTo a).i = s.i := rfl
@[simp] theorem State.jumpTo_stack (s : State) (a : Word) : (s.jumpTo a).stack = s.stack := rfl
@[simp] theorem State.jumpTo_sp (s : State) (a : Word) : (s.jumpTo a).sp = s.sp := rfl
@[simp] theorem State.jumpTo_dt (s : State) (a : Word) : (s.jumpTo a).dt = s.dt := rfl
@[simp] theorem State.jumpTo_st (s : State) (a : Word) : (s.jumpTo a).st = s.st := rfl
@[simp] theorem State.jumpTo_disp (s : State) (a : Word) : (s.jumpTo a).disp = s.disp := rfl
@[simp] theorem State.jumpTo_key (s : State) (a : Word) : (s.jumpTo a).key = s.key := rfl
@[simp] theorem State.jumpTo_waiting (s : State) (a : Word) : (s.jumpTo a).waiting = s.waiting := rfl
@[simp] theorem State.jumpTo_waitReg (s : State) (a : Word) : (s.jumpTo a).waitReg = s.waitReg := rfl
@[simp] theorem State.jumpTo_dirty (s : State) (a : Word) : (s.jumpTo a).dirty = s.dirty := rfl
@[simp] theorem State.jumpTo_fault (s : State) (a : Word) : (s.jumpTo a).fault = s.fault := rfl
@[simp] theorem State.jumpTo_rng (s : State) (a : Word) : (s.jumpTo a).rng = s.rng := rfl
@[simp] theorem State.jumpTo_params (s : State) (a : Word) : (s.jumpTo a).params = s.params := rfl

@[simp] theorem State.advance_pc (s : State) : s.advance.pc = s.pc + 2 := rfl
@[simp] theorem State.jumpTo_pc (s : State) (a : Word) : (s.jumpTo a).pc = a := rfl

/-! ### Registers -/

/-- `V[x] <- b` and then reading any register. -/
theorem State.getV_setV (s : State) (x y : Nibble) (b : Byte) :
    (s.setV x b).getV y = if y = x then b else s.getV y := by
  simp only [State.getV, State.setV, Vector.getElem_set, BitVec.toNat_inj, eq_comm (a := x)]

@[simp] theorem State.getV_setV_self (s : State) (x : Nibble) (b : Byte) : (s.setV x b).getV x = b := by
  simp [State.getV_setV]

@[simp] theorem State.getV_setV_ne (s : State) {x y : Nibble} (b : Byte) (h : y ≠ x) :
    (s.setV x b).getV y = s.getV y := by simp [State.getV_setV, h]

@[simp] theorem State.getV_advance (s : State) (x : Nibble) : s.advance.getV x = s.getV x := rfl
@[simp] theorem State.getV_jumpTo (s : State) (a : Word) (x : Nibble) : (s.jumpTo a).getV x = s.getV x := rfl
@[simp] theorem State.getV_writeByte (s : State) (a : Nat) (b : Byte) (x : Nibble) :
    (s.writeByte a b).getV x = s.getV x := rfl

/-! ### Memory reads under the register-only updates -/

@[simp] theorem State.byteAt_setV (s : State) (x : Nibble) (b : Byte) (a : Nat) :
    (s.setV x b).byteAt a = s.byteAt a := rfl
@[simp] theorem State.byteAt_advance (s : State) (a : Nat) : s.advance.byteAt a = s.byteAt a := rfl
@[simp] theorem State.byteAt_jumpTo (s : State) (w : Word) (a : Nat) : (s.jumpTo w).byteAt a = s.byteAt a := rfl

/-! ### Skips -/

/-- A skip only moves pc, by 2 when it is taken. -/
theorem State.skipIf_eq (s : State) (c : Bool) : s.skipIf c = s.jumpTo (if c then s.pc + 2 else s.pc) := by
  cases c <;> rfl

/-! ### The two orders of flag and result -/

/-- 8XY4's order: VF ends as the flag, V[X] as the result unless X is 0xF. -/
theorem State.getV_resultThenFlag (s : State) (x r : Nibble) (result flag : Byte) :
    (s.resultThenFlag x result flag).getV r =
      if r = flagReg then flag else if r = x then result else s.getV r := by
  simp only [State.resultThenFlag, State.getV_setV]

/-- AsListed: the result is computed after the flag is written, and is written last. -/
theorem State.getV_flagAndResult_asListed (s : State) (x r : Nibble) (flag : Byte) (result : State → Byte)
    (h : s.params.flagOrder = .asListed) :
    (s.flagAndResult x flag result).getV r =
      if r = x then result (s.setV flagReg flag) else if r = flagReg then flag else s.getV r := by
  simp only [State.flagAndResult, h, State.getV_setV]

/-- FlagLast: the result is computed from the old registers, and the flag is written last. -/
theorem State.getV_flagAndResult_flagLast (s : State) (x r : Nibble) (flag : Byte) (result : State → Byte)
    (h : s.params.flagOrder = .flagLast) :
    (s.flagAndResult x flag result).getV r =
      if r = flagReg then flag else if r = x then result s else s.getV r := by
  simp only [State.flagAndResult, h, State.getV_setV]

/-- Either order writes registers only: the state is the old one with another register file. -/
theorem State.flagAndResult_eq (s : State) (x : Nibble) (flag : Byte) (result : State → Byte) :
    s.flagAndResult x flag result = { s with v := (s.flagAndResult x flag result).v } := by
  unfold State.flagAndResult; split <;> rfl

/-- The same for 8XY4's order. -/
theorem State.resultThenFlag_eq (s : State) (x : Nibble) (result flag : Byte) :
    s.resultThenFlag x result flag = { s with v := (s.resultThenFlag x result flag).v } := rfl

/-! ### The fields skipIf leaves -/

@[simp] theorem State.skipIf_mem (s : State) (c : Bool) : (s.skipIf c).mem = s.mem := by rw [State.skipIf_eq]; rfl
@[simp] theorem State.skipIf_v (s : State) (c : Bool) : (s.skipIf c).v = s.v := by rw [State.skipIf_eq]; rfl
@[simp] theorem State.skipIf_i (s : State) (c : Bool) : (s.skipIf c).i = s.i := by rw [State.skipIf_eq]; rfl
@[simp] theorem State.skipIf_stack (s : State) (c : Bool) : (s.skipIf c).stack = s.stack := by rw [State.skipIf_eq]; rfl
@[simp] theorem State.skipIf_sp (s : State) (c : Bool) : (s.skipIf c).sp = s.sp := by rw [State.skipIf_eq]; rfl
@[simp] theorem State.skipIf_dt (s : State) (c : Bool) : (s.skipIf c).dt = s.dt := by rw [State.skipIf_eq]; rfl
@[simp] theorem State.skipIf_st (s : State) (c : Bool) : (s.skipIf c).st = s.st := by rw [State.skipIf_eq]; rfl
@[simp] theorem State.skipIf_disp (s : State) (c : Bool) : (s.skipIf c).disp = s.disp := by rw [State.skipIf_eq]; rfl
@[simp] theorem State.skipIf_key (s : State) (c : Bool) : (s.skipIf c).key = s.key := by rw [State.skipIf_eq]; rfl
@[simp] theorem State.skipIf_waiting (s : State) (c : Bool) : (s.skipIf c).waiting = s.waiting := by rw [State.skipIf_eq]; rfl
@[simp] theorem State.skipIf_waitReg (s : State) (c : Bool) : (s.skipIf c).waitReg = s.waitReg := by rw [State.skipIf_eq]; rfl
@[simp] theorem State.skipIf_dirty (s : State) (c : Bool) : (s.skipIf c).dirty = s.dirty := by rw [State.skipIf_eq]; rfl
@[simp] theorem State.skipIf_fault (s : State) (c : Bool) : (s.skipIf c).fault = s.fault := by rw [State.skipIf_eq]; rfl
@[simp] theorem State.skipIf_rng (s : State) (c : Bool) : (s.skipIf c).rng = s.rng := by rw [State.skipIf_eq]; rfl
@[simp] theorem State.skipIf_params (s : State) (c : Bool) : (s.skipIf c).params = s.params := by rw [State.skipIf_eq]; rfl

@[simp] theorem State.skipIf_pc (s : State) (c : Bool) : (s.skipIf c).pc = if c then s.pc + 2 else s.pc := by
  rw [State.skipIf_eq]; rfl

/-! ### The fields resultThenFlag leaves -/

@[simp] theorem State.resultThenFlag_mem (s : State) (x : Nibble) (r f : Byte) : (s.resultThenFlag x r f).mem = s.mem := rfl
@[simp] theorem State.resultThenFlag_i (s : State) (x : Nibble) (r f : Byte) : (s.resultThenFlag x r f).i = s.i := rfl
@[simp] theorem State.resultThenFlag_pc (s : State) (x : Nibble) (r f : Byte) : (s.resultThenFlag x r f).pc = s.pc := rfl
@[simp] theorem State.resultThenFlag_stack (s : State) (x : Nibble) (r f : Byte) : (s.resultThenFlag x r f).stack = s.stack := rfl
@[simp] theorem State.resultThenFlag_sp (s : State) (x : Nibble) (r f : Byte) : (s.resultThenFlag x r f).sp = s.sp := rfl
@[simp] theorem State.resultThenFlag_dt (s : State) (x : Nibble) (r f : Byte) : (s.resultThenFlag x r f).dt = s.dt := rfl
@[simp] theorem State.resultThenFlag_st (s : State) (x : Nibble) (r f : Byte) : (s.resultThenFlag x r f).st = s.st := rfl
@[simp] theorem State.resultThenFlag_disp (s : State) (x : Nibble) (r f : Byte) : (s.resultThenFlag x r f).disp = s.disp := rfl
@[simp] theorem State.resultThenFlag_key (s : State) (x : Nibble) (r f : Byte) : (s.resultThenFlag x r f).key = s.key := rfl
@[simp] theorem State.resultThenFlag_waiting (s : State) (x : Nibble) (r f : Byte) : (s.resultThenFlag x r f).waiting = s.waiting := rfl
@[simp] theorem State.resultThenFlag_waitReg (s : State) (x : Nibble) (r f : Byte) : (s.resultThenFlag x r f).waitReg = s.waitReg := rfl
@[simp] theorem State.resultThenFlag_dirty (s : State) (x : Nibble) (r f : Byte) : (s.resultThenFlag x r f).dirty = s.dirty := rfl
@[simp] theorem State.resultThenFlag_fault (s : State) (x : Nibble) (r f : Byte) : (s.resultThenFlag x r f).fault = s.fault := rfl
@[simp] theorem State.resultThenFlag_rng (s : State) (x : Nibble) (r f : Byte) : (s.resultThenFlag x r f).rng = s.rng := rfl
@[simp] theorem State.resultThenFlag_params (s : State) (x : Nibble) (r f : Byte) : (s.resultThenFlag x r f).params = s.params := rfl

/-! ### The fields flagAndResult leaves -/

@[simp] theorem State.flagAndResult_mem (s : State) (x : Nibble) (f : Byte) (r : State → Byte) : (s.flagAndResult x f r).mem = s.mem := by rw [State.flagAndResult_eq]
@[simp] theorem State.flagAndResult_i (s : State) (x : Nibble) (f : Byte) (r : State → Byte) : (s.flagAndResult x f r).i = s.i := by rw [State.flagAndResult_eq]
@[simp] theorem State.flagAndResult_pc (s : State) (x : Nibble) (f : Byte) (r : State → Byte) : (s.flagAndResult x f r).pc = s.pc := by rw [State.flagAndResult_eq]
@[simp] theorem State.flagAndResult_stack (s : State) (x : Nibble) (f : Byte) (r : State → Byte) : (s.flagAndResult x f r).stack = s.stack := by rw [State.flagAndResult_eq]
@[simp] theorem State.flagAndResult_sp (s : State) (x : Nibble) (f : Byte) (r : State → Byte) : (s.flagAndResult x f r).sp = s.sp := by rw [State.flagAndResult_eq]
@[simp] theorem State.flagAndResult_dt (s : State) (x : Nibble) (f : Byte) (r : State → Byte) : (s.flagAndResult x f r).dt = s.dt := by rw [State.flagAndResult_eq]
@[simp] theorem State.flagAndResult_st (s : State) (x : Nibble) (f : Byte) (r : State → Byte) : (s.flagAndResult x f r).st = s.st := by rw [State.flagAndResult_eq]
@[simp] theorem State.flagAndResult_disp (s : State) (x : Nibble) (f : Byte) (r : State → Byte) : (s.flagAndResult x f r).disp = s.disp := by rw [State.flagAndResult_eq]
@[simp] theorem State.flagAndResult_key (s : State) (x : Nibble) (f : Byte) (r : State → Byte) : (s.flagAndResult x f r).key = s.key := by rw [State.flagAndResult_eq]
@[simp] theorem State.flagAndResult_waiting (s : State) (x : Nibble) (f : Byte) (r : State → Byte) : (s.flagAndResult x f r).waiting = s.waiting := by rw [State.flagAndResult_eq]
@[simp] theorem State.flagAndResult_waitReg (s : State) (x : Nibble) (f : Byte) (r : State → Byte) : (s.flagAndResult x f r).waitReg = s.waitReg := by rw [State.flagAndResult_eq]
@[simp] theorem State.flagAndResult_dirty (s : State) (x : Nibble) (f : Byte) (r : State → Byte) : (s.flagAndResult x f r).dirty = s.dirty := by rw [State.flagAndResult_eq]
@[simp] theorem State.flagAndResult_fault (s : State) (x : Nibble) (f : Byte) (r : State → Byte) : (s.flagAndResult x f r).fault = s.fault := by rw [State.flagAndResult_eq]
@[simp] theorem State.flagAndResult_rng (s : State) (x : Nibble) (f : Byte) (r : State → Byte) : (s.flagAndResult x f r).rng = s.rng := by rw [State.flagAndResult_eq]
@[simp] theorem State.flagAndResult_params (s : State) (x : Nibble) (f : Byte) (r : State → Byte) : (s.flagAndResult x f r).params = s.params := by rw [State.flagAndResult_eq]

/-! ### Ticks -/

/-- A tick of a running core changes the two timers only. -/
theorem State.tickTimers_eq (s : State) (h : s.fault = none) :
    s.tickTimers = { s with dt := floorDec s.dt, st := floorDec s.st } := by
  simp [State.tickTimers, h]

/-- A tick of a faulted core changes nothing. -/
theorem State.tickTimers_faulted (s : State) {f : Fault} (h : s.fault = some f) : s.tickTimers = s := by
  simp [State.tickTimers, h]

@[simp] theorem State.tickTimers_fault (s : State) : s.tickTimers.fault = s.fault := by
  unfold State.tickTimers; split <;> rfl

@[simp] theorem State.endStep_fault (s : State) : s.endStep.fault = s.fault := by
  unfold State.endStep; split <;> simp

/-- The end of a step changes the two timers at most. -/
theorem State.endStep_eq (s : State) : s.endStep = { s with dt := s.endStep.dt, st := s.endStep.st } := by
  unfold State.endStep State.tickTimers; split <;> [rfl; (split <;> rfl)]

theorem floorDec_toNat (b : Byte) : (floorDec b).toNat = b.toNat - 1 := by
  unfold floorDec
  split
  · next h => simp [h]
  · next h =>
    have h0 : b.toNat ≠ 0 := fun e => h (BitVec.eq_of_toNat_eq (by simpa using e))
    have := b.isLt
    simp only [BitVec.toNat_sub, BitVec.ofNat_eq_ofNat, BitVec.toNat_ofNat]
    omega

end Sys2Proof.Machine
end

