-- ==== Sys2Proof/Laws/Memory.lean ====
section
/-! SUPPORT. The laws of memory: read after write, the canonical form is kept, and the spec of the multi-byte stores and
loads and of their checks. -/

namespace Sys2Proof.Machine

/-! ### One byte -/

/-- Reading what was just written. -/
theorem Memory.read_write_same (font : Font) (m : Memory) (a : Nat) (b : Byte) :
    Memory.read font (Memory.write font m a b) a = b := by
  induction m with
  | nil => unfold Memory.write; split <;> simp [Memory.read, *]
  | cons c rest ih =>
    obtain ⟨k, v⟩ := c
    unfold Memory.write
    split
    · split
      · exact ih
      · simp [Memory.read]
    · split
      · simp [Memory.read]
      · simp [Memory.read, *]

/-- A write leaves every other address alone. -/
theorem Memory.read_write_other (font : Font) (m : Memory) {a a' : Nat} (b : Byte) (h : a' ≠ a) :
    Memory.read font (Memory.write font m a b) a' = Memory.read font m a' := by
  induction m with
  | nil => unfold Memory.write; split <;> simp [Memory.read, Ne.symm h]
  | cons c rest ih =>
    obtain ⟨k, v⟩ := c
    unfold Memory.write
    split
    · next hk =>
      subst hk
      split
      · simp [Memory.read, ih, Ne.symm h]
      · simp [Memory.read, Ne.symm h]
    · split
      · simp [Memory.read, Ne.symm h]
      · simp [Memory.read, ih]

/-- A write of an address in range keeps the canonical form. -/
theorem Memory.wfFrom_write (font : Font) (m : Memory) (lo a : Nat) (b : Byte) (hlo : lo ≤ a) (ha : a < memSize)
    (h : Memory.wfFrom font lo m = true) : Memory.wfFrom font lo (Memory.write font m a b) = true := by
  induction m generalizing lo with
  | nil => unfold Memory.write; split <;> simp_all [Memory.wfFrom]
  | cons c rest ih =>
    obtain ⟨k, v⟩ := c
    simp only [Memory.wfFrom, Bool.and_eq_true, decide_eq_true_eq] at h
    obtain ⟨⟨⟨h1, h2⟩, h3⟩, h4⟩ := h
    unfold Memory.write
    split
    · next hk =>
      subst hk
      split
      · have weaken : ∀ m lo lo', lo ≤ lo' → Memory.wfFrom font lo' m = true → Memory.wfFrom font lo m = true := by
          intro m lo lo' hle hm
          cases m with
          | nil => rfl
          | cons c r =>
            simp only [Memory.wfFrom, Bool.and_eq_true, decide_eq_true_eq] at hm ⊢
            exact ⟨⟨⟨hle.trans hm.1.1.1, hm.1.1.2⟩, hm.1.2⟩, hm.2⟩
        have same : ∀ m, Memory.wfFrom font (k + 1) m = true → b = unlistedByte font k →
            Memory.write font m k b = m := by
          intro m
          induction m with
          | nil => intro _ hb; simp [Memory.write, hb]
          | cons c r ihr =>
            intro hm hb
            simp only [Memory.wfFrom, Bool.and_eq_true, decide_eq_true_eq] at hm
            have hne : c.1 ≠ k := by omega
            have hr : Memory.write font r k b = r := ihr (weaken _ _ _ (by omega) hm.2) hb
            simp [Memory.write, hne, hb, hb ▸ hr]
        rw [same rest h4 (by assumption)]
        exact weaken _ _ _ (by omega) h4
      · simp [Memory.wfFrom, *]
    · next hk =>
      split
      · next hins => simp [Memory.wfFrom, *]
      · next hins =>
        have : Memory.wfFrom font (k + 1) (Memory.write font rest a b) = true := by
          by_cases hak : a < k
          · have hb : b = unlistedByte font a := by
              by_contra hb; exact hins ⟨hak, hb⟩
            have same : ∀ m lo', a < lo' → Memory.wfFrom font lo' m = true → Memory.write font m a b = m := by
              intro m
              induction m with
              | nil => intro _ _ _; simp [Memory.write, hb]
              | cons c r ihr =>
                intro lo' hl hm
                simp only [Memory.wfFrom, Bool.and_eq_true, decide_eq_true_eq] at hm
                have hne : c.1 ≠ a := by omega
                have hr : Memory.write font r a b = r := ihr (c.1 + 1) (by omega) hm.2
                simp [Memory.write, hne, hb, hb ▸ hr]
            rw [same rest (k + 1) (by omega) h4]; exact h4
          · exact ih (k + 1) (by omega) h4
        simp [Memory.wfFrom, *]

/-- The reset memory is canonical. -/
theorem State.reset_mem_wf : Memory.wf State.reset.params.font State.reset.mem = true := rfl

@[simp] theorem State.byteAt_writeByte_self (s : State) (a : Nat) (b : Byte) : (s.writeByte a b).byteAt a = b :=
  Memory.read_write_same ..

theorem State.byteAt_writeByte_ne (s : State) {a a' : Nat} (b : Byte) (h : a' ≠ a) :
    (s.writeByte a b).byteAt a' = s.byteAt a' := Memory.read_write_other _ _ _ h

/-- `writeByte` keeps the canonical form. -/
theorem State.writeByte_wf (s : State) {a : Nat} (b : Byte) (ha : a < memSize)
    (h : Memory.wf s.params.font s.mem = true) :
    Memory.wf (s.writeByte a b).params.font (s.writeByte a b).mem = true :=
  Memory.wfFrom_write _ _ _ _ _ (Nat.zero_le _) ha h

/-! ### Several bytes -/

/-- A store of bytes changes memory only. -/
theorem State.storeBytes_eq (s : State) (base : Nat) (bs : List Byte) :
    s.storeBytes base bs = { s with mem := (s.storeBytes base bs).mem } := by
  induction bs generalizing s base with
  | nil => rfl
  | cons b bs ih => rw [State.storeBytes, ih]; rfl

/-- Reading after a store: the stored byte inside the range, the old byte outside. -/
theorem State.byteAt_storeBytes (s : State) (base : Nat) (bs : List Byte) (a : Nat) :
    (s.storeBytes base bs).byteAt a =
      if h : base ≤ a ∧ a < base + bs.length then bs[a - base]'(by omega) else s.byteAt a := by
  induction bs generalizing s base with
  | nil => simp [State.storeBytes]
  | cons b bs ih =>
    rw [State.storeBytes, ih]
    by_cases h0 : a = base
    · subst h0; simp
    · rw [State.byteAt_writeByte_ne _ _ h0]
      by_cases h1 : base + 1 ≤ a ∧ a < base + 1 + bs.length
      · rw [dif_pos h1, dif_pos (by simp; omega)]
        have : a - base = a - (base + 1) + 1 := by omega
        simp [this]
      · rw [dif_neg h1, dif_neg (by simp; omega)]

/-- A store inside memory keeps the canonical form. -/
theorem State.storeBytes_wf (s : State) (base : Nat) (bs : List Byte) (hb : base + bs.length ≤ memSize)
    (h : Memory.wf s.params.font s.mem = true) :
    Memory.wf (s.storeBytes base bs).params.font (s.storeBytes base bs).mem = true := by
  induction bs generalizing s base with
  | nil => exact h
  | cons b bs ih =>
    simp only [List.length_cons] at hb
    exact ih _ _ (by omega) (s.writeByte_wf b (by omega) h)

/-- A load of registers changes registers only. -/
theorem State.loadRegs_eq (s : State) (base n : Nat) :
    s.loadRegs base n = { s with v := (s.loadRegs base n).v } := by
  induction n with
  | zero => rfl
  | succ n ih => rw [State.loadRegs, ih]; rfl

/-- Reading a register after a load: the memory byte for a loaded one, the old value for another. -/
theorem State.getV_loadRegs (s : State) (base n : Nat) (hn : n ≤ 16) (r : Nibble) :
    (s.loadRegs base n).getV r = if r.toNat < n then s.byteAt (base + r.toNat) else s.getV r := by
  induction n with
  | zero => simp [State.loadRegs]
  | succ n ih =>
    rw [State.loadRegs, State.getV_setV, ih (by omega)]
    have hk : (BitVec.ofNat 4 n).toNat = n := by simp; omega
    by_cases hr : r = BitVec.ofNat 4 n
    · subst hr; simp only [if_true, hk]; simp
    · have : r.toNat ≠ n := fun e => hr (BitVec.eq_of_toNat_eq (by rw [hk, e]))
      rw [if_neg hr]
      by_cases h1 : r.toNat < n
      · rw [if_pos h1, if_pos (by omega)]
      · rw [if_neg h1, if_neg (by omega)]

@[simp] theorem State.regBytes_length (s : State) (x : Nibble) : (s.regBytes x).length = x.toNat + 1 := by
  simp [State.regBytes]

theorem State.getElem_regBytes (s : State) (x : Nibble) (k : Nat) (h : k < (s.regBytes x).length) :
    (s.regBytes x)[k] = s.getV (BitVec.ofNat 4 k) := by simp [State.regBytes]

@[simp] theorem bcdBytes_length (b : Byte) : (bcdBytes b).length = 3 := rfl

/-! ### The fields storeBytes leaves -/

@[simp] theorem State.storeBytes_v (s : State) (base : Nat) (bs : List Byte) : (s.storeBytes base bs).v = s.v := by rw [State.storeBytes_eq]
@[simp] theorem State.storeBytes_i (s : State) (base : Nat) (bs : List Byte) : (s.storeBytes base bs).i = s.i := by rw [State.storeBytes_eq]
@[simp] theorem State.storeBytes_pc (s : State) (base : Nat) (bs : List Byte) : (s.storeBytes base bs).pc = s.pc := by rw [State.storeBytes_eq]
@[simp] theorem State.storeBytes_stack (s : State) (base : Nat) (bs : List Byte) : (s.storeBytes base bs).stack = s.stack := by rw [State.storeBytes_eq]
@[simp] theorem State.storeBytes_sp (s : State) (base : Nat) (bs : List Byte) : (s.storeBytes base bs).sp = s.sp := by rw [State.storeBytes_eq]
@[simp] theorem State.storeBytes_dt (s : State) (base : Nat) (bs : List Byte) : (s.storeBytes base bs).dt = s.dt := by rw [State.storeBytes_eq]
@[simp] theorem State.storeBytes_st (s : State) (base : Nat) (bs : List Byte) : (s.storeBytes base bs).st = s.st := by rw [State.storeBytes_eq]
@[simp] theorem State.storeBytes_disp (s : State) (base : Nat) (bs : List Byte) : (s.storeBytes base bs).disp = s.disp := by rw [State.storeBytes_eq]
@[simp] theorem State.storeBytes_key (s : State) (base : Nat) (bs : List Byte) : (s.storeBytes base bs).key = s.key := by rw [State.storeBytes_eq]
@[simp] theorem State.storeBytes_waiting (s : State) (base : Nat) (bs : List Byte) : (s.storeBytes base bs).waiting = s.waiting := by rw [State.storeBytes_eq]
@[simp] theorem State.storeBytes_waitReg (s : State) (base : Nat) (bs : List Byte) : (s.storeBytes base bs).waitReg = s.waitReg := by rw [State.storeBytes_eq]
@[simp] theorem State.storeBytes_dirty (s : State) (base : Nat) (bs : List Byte) : (s.storeBytes base bs).dirty = s.dirty := by rw [State.storeBytes_eq]
@[simp] theorem State.storeBytes_fault (s : State) (base : Nat) (bs : List Byte) : (s.storeBytes base bs).fault = s.fault := by rw [State.storeBytes_eq]
@[simp] theorem State.storeBytes_rng (s : State) (base : Nat) (bs : List Byte) : (s.storeBytes base bs).rng = s.rng := by rw [State.storeBytes_eq]
@[simp] theorem State.storeBytes_params (s : State) (base : Nat) (bs : List Byte) : (s.storeBytes base bs).params = s.params := by rw [State.storeBytes_eq]

/-! ### The fields loadRegs leaves -/

@[simp] theorem State.loadRegs_mem (s : State) (base n : Nat) : (s.loadRegs base n).mem = s.mem := by rw [State.loadRegs_eq]
@[simp] theorem State.loadRegs_i (s : State) (base n : Nat) : (s.loadRegs base n).i = s.i := by rw [State.loadRegs_eq]
@[simp] theorem State.loadRegs_pc (s : State) (base n : Nat) : (s.loadRegs base n).pc = s.pc := by rw [State.loadRegs_eq]
@[simp] theorem State.loadRegs_stack (s : State) (base n : Nat) : (s.loadRegs base n).stack = s.stack := by rw [State.loadRegs_eq]
@[simp] theorem State.loadRegs_sp (s : State) (base n : Nat) : (s.loadRegs base n).sp = s.sp := by rw [State.loadRegs_eq]
@[simp] theorem State.loadRegs_dt (s : State) (base n : Nat) : (s.loadRegs base n).dt = s.dt := by rw [State.loadRegs_eq]
@[simp] theorem State.loadRegs_st (s : State) (base n : Nat) : (s.loadRegs base n).st = s.st := by rw [State.loadRegs_eq]
@[simp] theorem State.loadRegs_disp (s : State) (base n : Nat) : (s.loadRegs base n).disp = s.disp := by rw [State.loadRegs_eq]
@[simp] theorem State.loadRegs_key (s : State) (base n : Nat) : (s.loadRegs base n).key = s.key := by rw [State.loadRegs_eq]
@[simp] theorem State.loadRegs_waiting (s : State) (base n : Nat) : (s.loadRegs base n).waiting = s.waiting := by rw [State.loadRegs_eq]
@[simp] theorem State.loadRegs_waitReg (s : State) (base n : Nat) : (s.loadRegs base n).waitReg = s.waitReg := by rw [State.loadRegs_eq]
@[simp] theorem State.loadRegs_dirty (s : State) (base n : Nat) : (s.loadRegs base n).dirty = s.dirty := by rw [State.loadRegs_eq]
@[simp] theorem State.loadRegs_fault (s : State) (base n : Nat) : (s.loadRegs base n).fault = s.fault := by rw [State.loadRegs_eq]
@[simp] theorem State.loadRegs_rng (s : State) (base n : Nat) : (s.loadRegs base n).rng = s.rng := by rw [State.loadRegs_eq]
@[simp] theorem State.loadRegs_params (s : State) (base n : Nat) : (s.loadRegs base n).params = s.params := by rw [State.loadRegs_eq]

@[simp] theorem State.getV_storeBytes (s : State) (base : Nat) (bs : List Byte) (x : Nibble) :
    (s.storeBytes base bs).getV x = s.getV x := by rw [State.storeBytes_eq]; rfl
@[simp] theorem State.byteAt_loadRegs (s : State) (base n a : Nat) :
    (s.loadRegs base n).byteAt a = s.byteAt a := by rw [State.loadRegs_eq]; rfl

/-! ### Address checks -/

/-- No offset fails exactly when every check passes. -/
theorem firstFailing_eq_none (check : Nat → Option Fault) (base n : Nat) :
    firstFailing check base n = none ↔ ∀ k < n, check (base + k) = none := by
  induction n with
  | zero => simp [firstFailing]
  | succ n ih =>
    rw [firstFailing]
    constructor
    · intro h k hk
      split at h
      · cases h
      · next h0 =>
        rcases Nat.lt_succ_iff_lt_or_eq.mp hk with hk | rfl
        · exact ih.mp h0 k hk
        · exact h
    · intro h
      rw [ih.mpr fun k hk => h k (by omega)]
      exact h n (by omega)

/-- The fault reported is that of the lowest failing offset. -/
theorem firstFailing_eq_some (check : Nat → Option Fault) (base n : Nat) (f : Fault) :
    firstFailing check base n = some f ↔
      ∃ k < n, check (base + k) = some f ∧ ∀ j < k, check (base + j) = none := by
  induction n with
  | zero => simp [firstFailing]
  | succ n ih =>
    rw [firstFailing]
    split
    · next g hg =>
      rw [← hg, ih]
      constructor
      · rintro ⟨k, hk, h1, h2⟩; exact ⟨k, by omega, h1, h2⟩
      · rintro ⟨k, hk, h1, h2⟩
        obtain ⟨k', hk', h1', h2'⟩ := (ih.mp (hg.trans (by
          by_cases hkn : k < n
          · exact hg.symm.trans (ih.mpr ⟨k, hkn, h1, h2⟩)
          · exfalso
            have : k = n := by omega
            subst this
            have := (firstFailing_eq_none check base k).mpr h2
            rw [hg] at this; cases this)))
        exact ⟨k', hk', h1', h2'⟩
    · next h0 =>
      have h0' := (firstFailing_eq_none check base n).mp h0
      constructor
      · intro h; exact ⟨n, by omega, h, h0'⟩
      · rintro ⟨k, hk, h1, -⟩
        rcases Nat.lt_succ_iff_lt_or_eq.mp hk with hk | rfl
        · rw [h0' k hk] at h1; cases h1
        · exact h1

/-- A read of `n` bytes passes exactly when the last one is in memory. -/
theorem firstFailing_checkRead_none (base n : Nat) (hn : 0 < n) :
    firstFailing checkRead base n = none ↔ base + n ≤ 0x1000 := by
  rw [firstFailing_eq_none]
  constructor
  · intro h
    have := h (n - 1) (by omega)
    simp only [checkRead] at this
    split at this
    · cases this
    · omega
  · intro h k hk
    simp only [checkRead]
    rw [if_neg (by omega)]

/-- A failing read reports the first address above 0xFFF. -/
theorem firstFailing_checkRead_some (base n : Nat) (hn : 0 < n) (h : 0x1000 < base + n) :
    firstFailing checkRead base n =
      some (.memoryFault (if base > 0xFFF then base else 0x1000) .read .outOfRange) := by
  rw [firstFailing_eq_some]
  by_cases hb : base > 0xFFF
  · refine ⟨0, hn, ?_, by simp⟩
    simp [checkRead, hb]
  · refine ⟨0x1000 - base, by omega, ?_, ?_⟩
    · have : base + (0x1000 - base) = 0x1000 := by omega
      simp [checkRead, hb, this]
    · intro j hj
      simp only [checkRead]
      rw [if_neg (by omega)]

/-- A write of `n` bytes passes exactly when all of it lies in 0x050–0xFFF. -/
theorem firstFailing_checkWrite_none (base n : Nat) (hn : 0 < n) :
    firstFailing checkWrite base n = none ↔ 0x050 ≤ base ∧ base + n ≤ 0x1000 := by
  rw [firstFailing_eq_none]
  constructor
  · intro h
    have h1 := h (n - 1) (by omega)
    have h2 := h 0 hn
    simp only [checkWrite] at h1 h2
    split at h1
    · cases h1
    · split at h2
      · cases h2
      · split at h2
        · cases h2
        · omega
  · intro h k hk
    simp only [checkWrite]
    rw [if_neg (by omega), if_neg (by omega)]

/-- A write that starts in the font region reports its first address. -/
theorem firstFailing_checkWrite_font (base n : Nat) (hn : 0 < n) (h : base ≤ 0x04F) :
    firstFailing checkWrite base n = some (.memoryFault base .write .fontProtected) := by
  rw [firstFailing_eq_some]
  refine ⟨0, hn, ?_, by simp⟩
  simp only [checkWrite, Nat.add_zero]
  rw [if_neg (by omega), if_pos h]

/-- Any other failing write reports the first address above 0xFFF. -/
theorem firstFailing_checkWrite_range (base n : Nat) (hn : 0 < n) (h0 : 0x050 ≤ base) (h : 0x1000 < base + n) :
    firstFailing checkWrite base n =
      some (.memoryFault (if base > 0xFFF then base else 0x1000) .write .outOfRange) := by
  rw [firstFailing_eq_some]
  by_cases hb : base > 0xFFF
  · refine ⟨0, hn, ?_, by simp⟩
    simp [checkWrite, hb]
  · refine ⟨0x1000 - base, by omega, ?_, ?_⟩
    · have : base + (0x1000 - base) = 0x1000 := by omega
      simp [checkWrite, hb, this]
    · intro j hj
      simp only [checkWrite]
      rw [if_neg (by omega), if_neg (by omega)]

end Sys2Proof.Machine
end

