-- ==== Sys2Proof/Laws/Ops.lean ====
section
/-! SUPPORT. What the shared operations can do, each said once: guarded execution, the stack, the key index, the key
wait, the fetch, and the end of a step. -/

namespace Sys2Proof.Machine

/-- A guarded instruction either takes the fault of its check or runs its body. -/
theorem State.guarded_cases {s t body : State} {check : Option Fault} (h : s.guarded check body = .next t) :
    (∃ f, check = some f ∧ t = { s with fault := some f }) ∨ (check = none ∧ t = body) := by
  cases check with
  | none => right; simpa [State.guarded, eq_comm] using h
  | some f => left; exact ⟨f, rfl, by simpa [State.guarded, State.takeFault, eq_comm] using h⟩

@[simp] theorem State.guarded_none (s body : State) : s.guarded none body = .next body := rfl
@[simp] theorem State.guarded_some (s body : State) (f : Fault) :
    s.guarded (some f) body = .next { s with fault := some f } := rfl

/-! ### The stack -/

/-- A push succeeds exactly with fewer than 16 entries in use; it writes the entry at sp and moves sp up. -/
theorem State.push_ok (s : State) (a : Word) (h : s.sp.val < 16) :
    s.push a = .ok { s with stack := s.stack.set s.sp.val a h, sp := ⟨s.sp.val + 1, by omega⟩ } := by
  simp [State.push, h]

theorem State.push_full (s : State) (a : Word) (h : s.sp.val = 16) :
    s.push a = .error (.stackFault .overflow 16) := by
  have : s.sp = 16 := Fin.ext h
  simp [State.push, this]

/-- A pop with k + 1 entries in use answers entry k and leaves k in use. -/
theorem State.pop_ok (s : State) (k : Nat) (hk : k < 16) (h : s.sp.val = k + 1) :
    s.pop = .ok (s.stack[k], { s with sp := ⟨k, by omega⟩ }) := by
  have hs : s.sp = ⟨k + 1, by omega⟩ := Fin.ext h
  simp [State.pop, hs]

theorem State.pop_empty (s : State) (h : s.sp.val = 0) : s.pop = .error (.stackFault .underflow 0) := by
  have : s.sp = 0 := Fin.ext h
  simp [State.pop, this]

/-! ### Keys -/

theorem keyIndex_of_lt (b : Byte) (k : Fin 16) (h : b.toNat = k.val) : keyIndex b = some k := by
  simp only [keyIndex, h, k.isLt, dite_true]

theorem keyIndex_of_ge (b : Byte) (h : 0xF < b.toNat) : keyIndex b = none := by
  rw [keyIndex, dif_neg (by omega)]

/-- `lowestPressed` finds nothing exactly when every key is released. -/
theorem lowestPressed_eq_none (key : Vector Bool 16) :
    lowestPressed key = none ↔ ∀ k : Fin 16, key[k] = false := by
  simp only [lowestPressed, List.findIdx?_eq_none_iff, Vector.mem_toList_iff, Vector.mem_iff_getElem]
  constructor
  · intro h k; exact by simpa using h _ ⟨k.val, k.isLt, rfl⟩
  · rintro h b ⟨k, hk, rfl⟩; exact h ⟨k, hk⟩

/-- `lowestPressed` finds a key exactly when it is pressed and every lower one is released. -/
theorem lowestPressed_eq_some (key : Vector Bool 16) (k : Nat) :
    lowestPressed key = some k ↔
      ∃ h : k < 16, key[k] = true ∧ ∀ (j : Nat) (hj : j < k), key[j]'(by omega) = false := by
  simp only [lowestPressed, List.findIdx?_eq_some_iff_getElem, Vector.length_toList, Vector.getElem_toList, id,
    Bool.not_eq_true]

/-- A key wait that goes on changes nothing. -/
theorem State.keyWaitStep_none (s : State) (h : lowestPressed s.key = none) : s.keyWaitStep = s := by
  simp only [State.keyWaitStep, h]

/-- A key wait that ends writes the key's index to V[wait_reg] and clears the wait. -/
theorem State.keyWaitStep_some (s : State) {k : Nat} (h : lowestPressed s.key = some k) :
    s.keyWaitStep = { s.setV s.waitReg (BitVec.ofNat 8 k) with waiting := false } := by
  simp only [State.keyWaitStep, h]

@[simp] theorem State.keyWaitStep_fault (s : State) : s.keyWaitStep.fault = s.fault := by
  unfold State.keyWaitStep; split <;> rfl

/-! ### The fetch -/

theorem State.fetchWord_ok (s : State) (h : s.pc.toNat ≤ 0xFFE) :
    s.fetchWord = .ok (wordOfBytes (s.byteAt s.pc.toNat) (s.byteAt (s.pc.toNat + 1))) := by
  rw [State.fetchWord, if_neg (by omega)]

theorem State.fetchWord_fault (s : State) (h : 0xFFE < s.pc.toNat) :
    s.fetchWord = .error (.memoryFault s.pc.toNat .fetch .outOfRange) := by
  rw [State.fetchWord, if_pos (by omega)]

end Sys2Proof.Machine
end

