-- ==== Sys2Proof/Laws/Exec.lean ====
section
/-! SUPPORT. Inversion of the instructions that can take a fault: from "it answers `t`", the fault and its cause, or the
effect and its condition. Every other meaning is one `.next` of an explicit state. -/

namespace Sys2Proof.Machine

/-- Recording a fault changes no byte of memory and no register. -/
@[simp] theorem State.byteAt_withFault (s : State) (f : Option Fault) (a : Nat) :
    State.byteAt { s with fault := f } a = s.byteAt a := rfl
@[simp] theorem State.getV_withFault (s : State) (f : Option Fault) (x : Nibble) :
    State.getV { s with fault := f } x = s.getV x := rfl

theorem execRet_cases {s t : State} (h : execRet s = .next t) :
    (s.sp.val = 0 ∧ t = { s with fault := some (.stackFault .underflow 0) }) ∨
    ∃ (k : Nat) (hk : k < 16), s.sp.val = k + 1 ∧ t = { s with sp := ⟨k, by omega⟩, pc := s.stack[k] } := by
  by_cases h0 : s.sp.val = 0
  · rw [execRet, s.pop_empty h0] at h; cases h; exact .inl ⟨h0, rfl⟩
  · have hk : s.sp.val - 1 < 16 := by have := s.sp.isLt; omega
    rw [execRet, s.pop_ok (s.sp.val - 1) hk (by omega)] at h
    cases h
    exact .inr ⟨s.sp.val - 1, hk, by omega, rfl⟩

theorem execCall_cases {nnn : Addr12} {s t : State} (h : execCall nnn s = .next t) :
    (s.sp.val = 16 ∧ t = { s with fault := some (.stackFault .overflow 16) }) ∨
    ∃ hk : s.sp.val < 16, t = { s with
      stack := s.stack.set s.sp.val (s.pc + 2) hk, sp := ⟨s.sp.val + 1, by omega⟩, pc := addrWord nnn } := by
  by_cases h0 : s.sp.val = 16
  · rw [execCall, s.push_full _ h0] at h; cases h; exact .inl ⟨h0, rfl⟩
  · have hk : s.sp.val < 16 := by have := s.sp.isLt; omega
    rw [execCall, s.push_ok _ hk] at h
    cases h
    exact .inr ⟨hk, rfl⟩

theorem execSkp_cases {x : Nibble} {s t : State} (h : execSkp x s = .next t) :
    (0xF < (s.getV x).toNat ∧ t = { s with fault := some (.keyIndexFault (s.getV x)) }) ∨
    ∃ k : Fin 16, (s.getV x).toNat = k.val ∧ t = s.advance.skipIf s.key[k] := by
  by_cases h0 : 0xF < (s.getV x).toNat
  · rw [execSkp, keyIndex_of_ge _ h0] at h; cases h; exact .inl ⟨h0, rfl⟩
  · have hk : (s.getV x).toNat = (⟨(s.getV x).toNat, by omega⟩ : Fin 16).val := rfl
    rw [execSkp, keyIndex_of_lt _ _ hk] at h
    cases h
    exact .inr ⟨_, hk, rfl⟩

theorem execSknp_cases {x : Nibble} {s t : State} (h : execSknp x s = .next t) :
    (0xF < (s.getV x).toNat ∧ t = { s with fault := some (.keyIndexFault (s.getV x)) }) ∨
    ∃ k : Fin 16, (s.getV x).toNat = k.val ∧ t = s.advance.skipIf (!s.key[k]) := by
  by_cases h0 : 0xF < (s.getV x).toNat
  · rw [execSknp, keyIndex_of_ge _ h0] at h; cases h; exact .inl ⟨h0, rfl⟩
  · have hk : (s.getV x).toNat = (⟨(s.getV x).toNat, by omega⟩ : Fin 16).val := rfl
    rw [execSknp, keyIndex_of_lt _ _ hk] at h
    cases h
    exact .inr ⟨_, hk, rfl⟩

/-- A store of `bs` at I: MemoryFault(Write) at the first failing address, or the store, all of it in 0x050–0xFFF. -/
theorem guardedStore_cases {s t : State} {n : Nat} {bs : List Byte} (hn : 0 < n) (hl : bs.length = n)
    (h : s.guarded (firstFailing checkWrite (s.dataAddr 0) n) (s.advance.storeBytes (s.dataAddr 0) bs) = .next t) :
    (s.i.toNat ≤ 0x04F ∧ t = { s with fault := some (.memoryFault s.i.toNat .write .fontProtected) }) ∨
    (0x050 ≤ s.i.toNat ∧ 0x1000 < s.i.toNat + n ∧ t = { s with
      fault := some (.memoryFault (if s.i.toNat > 0xFFF then s.i.toNat else 0x1000) .write .outOfRange) }) ∨
    (0x050 ≤ s.i.toNat ∧ s.i.toNat + bs.length ≤ 0x1000 ∧ t = s.advance.storeBytes s.i.toNat bs) := by
  have hi : s.dataAddr 0 = s.i.toNat := rfl
  rw [hi] at h
  by_cases h1 : s.i.toNat ≤ 0x04F
  · rw [firstFailing_checkWrite_font _ _ hn h1] at h; cases h; exact .inl ⟨h1, rfl⟩
  · by_cases h2 : 0x1000 < s.i.toNat + n
    · rw [firstFailing_checkWrite_range _ _ hn (by omega) h2] at h
      cases h
      exact .inr (.inl ⟨by omega, h2, rfl⟩)
    · rw [(firstFailing_checkWrite_none _ _ hn).mpr ⟨by omega, by omega⟩] at h
      cases h
      exact .inr (.inr ⟨by omega, by omega, rfl⟩)

theorem execLdB_cases {x : Nibble} {s t : State} (h : execLdB x s = .next t) :
    (s.i.toNat ≤ 0x04F ∧ t = { s with fault := some (.memoryFault s.i.toNat .write .fontProtected) }) ∨
    (0x050 ≤ s.i.toNat ∧ 0xFFF < s.i.toNat + 2 ∧ t = { s with
      fault := some (.memoryFault (if s.i.toNat > 0xFFF then s.i.toNat else 0x1000) .write .outOfRange) }) ∨
    (0x050 ≤ s.i.toNat ∧ s.i.toNat + 2 ≤ 0xFFF ∧ t = s.advance.storeBytes s.i.toNat (bcdBytes (s.getV x))) := by
  rcases guardedStore_cases (n := 3) (by omega) rfl h with h | ⟨h1, h2, h⟩ | ⟨h1, h2, h⟩
  · exact .inl h
  · exact .inr (.inl ⟨h1, by omega, h⟩)
  · exact .inr (.inr ⟨h1, by simp at h2; omega, h⟩)

theorem execStRegs_cases {x : Nibble} {s t : State} (h : execStRegs x s = .next t) :
    (s.i.toNat ≤ 0x04F ∧ t = { s with fault := some (.memoryFault s.i.toNat .write .fontProtected) }) ∨
    (0x050 ≤ s.i.toNat ∧ 0xFFF < s.i.toNat + x.toNat ∧ t = { s with
      fault := some (.memoryFault (if s.i.toNat > 0xFFF then s.i.toNat else 0x1000) .write .outOfRange) }) ∨
    (0x050 ≤ s.i.toNat ∧ s.i.toNat + x.toNat ≤ 0xFFF ∧ t = s.advance.storeBytes s.i.toNat (s.regBytes x)) := by
  rcases guardedStore_cases (by omega) (s.regBytes_length x) h with h | ⟨h1, h2, h⟩ | ⟨h1, h2, h⟩
  · exact .inl h
  · exact .inr (.inl ⟨h1, by omega, h⟩)
  · exact .inr (.inr ⟨h1, by simp at h2; omega, h⟩)

theorem execLdRegs_cases {x : Nibble} {s t : State} (h : execLdRegs x s = .next t) :
    (0xFFF < s.i.toNat + x.toNat ∧ t = { s with
      fault := some (.memoryFault (if s.i.toNat > 0xFFF then s.i.toNat else 0x1000) .read .outOfRange) }) ∨
    (s.i.toNat + x.toNat ≤ 0xFFF ∧ t = s.advance.loadRegs s.i.toNat (x.toNat + 1)) := by
  have hi : s.dataAddr 0 = s.i.toNat := rfl
  rw [execLdRegs, hi] at h
  by_cases h2 : 0x1000 < s.i.toNat + (x.toNat + 1)
  · rw [firstFailing_checkRead_some _ _ (by omega) h2] at h; cases h; exact .inl ⟨by omega, rfl⟩
  · rw [(firstFailing_checkRead_none _ _ (by omega)).mpr (by omega)] at h
    cases h
    exact .inr ⟨by omega, rfl⟩

/-- What DXYN draws: the display and the collision (R102). -/
def drawResult (x y n : Nibble) (s : State) : Display × Bool :=
  drawRows (s.getV x).toNat (s.getV y).toNat 0 (s.readBytes s.i.toNat n.toNat) (s.disp, false)

theorem execDrw_cases {x y n : Nibble} {s t : State} (h : execDrw x y n s = .next t) :
    (n ≠ 0 ∧ 0x1000 < s.i.toNat + n.toNat ∧ t = { s with
      fault := some (.memoryFault (if s.i.toNat > 0xFFF then s.i.toNat else 0x1000) .read .outOfRange) }) ∨
    ((n = 0 ∨ s.i.toNat + n.toNat ≤ 0x1000) ∧
      t = { s.advance.setV flagReg (flagByte (drawResult x y n s).2) with
        disp := (drawResult x y n s).1, dirty := true }) := by
  have hi : s.dataAddr 0 = s.i.toNat := rfl
  rw [execDrw, hi] at h
  by_cases hn : n = 0
  · subst hn; cases h; exact .inr ⟨.inl rfl, rfl⟩
  · have hn' : 0 < n.toNat := by
      rcases Nat.eq_zero_or_pos n.toNat with h0 | h0
      · exact absurd (BitVec.eq_of_toNat_eq (by simpa using h0)) hn
      · exact h0
    by_cases h2 : 0x1000 < s.i.toNat + n.toNat
    · rw [firstFailing_checkRead_some _ _ hn' h2] at h; cases h; exact .inl ⟨hn, h2, rfl⟩
    · rw [(firstFailing_checkRead_none _ _ hn').mpr (by omega)] at h
      cases h
      exact .inr ⟨.inr (by omega), rfl⟩

end Sys2Proof.Machine
end

