-- ==== Sys2Proof/Laws/Display.lean ====
section
/-! SUPPORT. The display laws: what a flip, a row and a whole sprite do to each pixel, and when a collision is seen. -/

namespace Sys2Proof.Machine

/-- A flip toggles its own pixel and no other. -/
theorem Display.pixel_flip (d : Display) (x px : Fin 64) (y py : Fin 32) :
    (d.flip x y).pixel px py = (d.pixel px py != (decide (px = x) && decide (py = y))) := by
  unfold Display.flip Display.pixel
  by_cases hy : py = y
  · subst hy
    by_cases hx : px = x
    · subst hx; simp
    · have : x.val ≠ px.val := fun e => hx (Fin.ext e.symm)
      simp [hx, this]
  · have : y.val ≠ py.val := fun e => hy (Fin.ext e.symm)
    simp [hy, this]

/-- The column offset that lands on column px when drawing from x0. -/
def colOffset (x0 : Nat) (px : Fin 64) : Nat := (px.val + 64 - x0 % 64) % 64

/-- The row offset that lands on row py when drawing from y0. -/
def rowOffset (y0 : Nat) (py : Fin 32) : Nat := (py.val + 32 - y0 % 32) % 32

theorem eq_wrapX_iff (x0 : Nat) (px : Fin 64) (c : Nat) (hc : c < 64) : px = wrapX x0 c ↔ colOffset x0 px = c := by
  have := px.isLt
  rw [Fin.ext_iff]
  simp only [wrapX, Fin.ofNat, colOffset]
  omega

theorem eq_wrapY_iff (y0 : Nat) (py : Fin 32) (r : Nat) (hr : r < 32) : py = wrapY y0 r ↔ rowOffset y0 py = r := by
  have := py.isLt
  rw [Fin.ext_iff]
  simp only [wrapY, Fin.ofNat, rowOffset]
  omega

/-- Whether the first n columns of sprite byte b, drawn from x0, have a set bit on column px. -/
def rowCovers (b : Byte) (x0 n : Nat) (px : Fin 64) : Bool :=
  decide (colOffset x0 px < n) && spriteBit b (colOffset x0 px)

theorem rowCovers_succ (b : Byte) (x0 n : Nat) (px : Fin 64) (hn : n < 64) :
    rowCovers b x0 (n + 1) px = (rowCovers b x0 n px != (decide (px = wrapX x0 n) && spriteBit b n)) := by
  unfold rowCovers
  by_cases h : colOffset x0 px = n
  · simp [(eq_wrapX_iff x0 px n hn).mpr h, (eq_wrapX_iff x0 (wrapX x0 n) n hn).mp rfl]
  · have h1 : ¬ px = wrapX x0 n := fun e => h ((eq_wrapX_iff x0 px n hn).mp e)
    simp only [h1, decide_false, Bool.false_and, Bool.bne_false]
    congr 1
    simp only [decide_eq_decide]; omega

/-- One pixel of a sprite row: it is toggled when its bit is set, and a collision is seen when it was set before. -/
theorem drawBit_spec (b : Byte) (x0 : Nat) (y : Fin 32) (acc : Display × Bool) (c : Nat) :
    (∀ px py, (drawBit b x0 y acc c).1.pixel px py =
      (acc.1.pixel px py != (decide (px = wrapX x0 c) && spriteBit b c && decide (py = y)))) ∧
    (drawBit b x0 y acc c).2 = (acc.2 || (spriteBit b c && acc.1.pixel (wrapX x0 c) y)) := by
  unfold drawBit
  cases hb : spriteBit b c
  · simp
  · refine ⟨fun px py => ?_, by simp⟩
    simp [Display.pixel_flip]

/-- The first n columns of a sprite row. -/
theorem drawBits_spec (b : Byte) (x0 : Nat) (y : Fin 32) (acc : Display × Bool) (n : Nat) (hn : n ≤ 64) :
    (∀ px py, ((List.range n).foldl (drawBit b x0 y) acc).1.pixel px py =
      (acc.1.pixel px py != (rowCovers b x0 n px && decide (py = y)))) ∧
    (((List.range n).foldl (drawBit b x0 y) acc).2 = true ↔
      acc.2 = true ∨ ∃ px, rowCovers b x0 n px = true ∧ acc.1.pixel px y = true) := by
  induction n with
  | zero => simp [rowCovers]
  | succ n ih =>
    obtain ⟨ih1, ih2⟩ := ih (by omega)
    rw [List.range_succ, List.foldl_append, List.foldl_cons, List.foldl_nil]
    obtain ⟨h1, h2⟩ := drawBit_spec b x0 y ((List.range n).foldl (drawBit b x0 y) acc) n
    refine ⟨fun px py => ?_, ?_⟩
    · rw [h1, ih1, rowCovers_succ b x0 n px (by omega)]
      cases acc.1.pixel px py <;> cases rowCovers b x0 n px <;> cases decide (px = wrapX x0 n) <;>
        cases spriteBit b n <;> cases decide (py = y) <;> rfl
    · rw [h2, Bool.or_eq_true, ih2, ih1]
      have hself : rowCovers b x0 n (wrapX x0 n) = false := by
        simp [rowCovers, (eq_wrapX_iff x0 (wrapX x0 n) n (by omega)).mp rfl]
      rw [hself, Bool.false_and, Bool.bne_false, Bool.and_eq_true, or_assoc]
      refine or_congr_right ⟨?_, ?_⟩
      · rintro (⟨px, hp, hq⟩ | ⟨hb, hq⟩)
        · refine ⟨px, ?_, hq⟩
          simp only [rowCovers, Bool.and_eq_true, decide_eq_true_eq] at hp ⊢
          exact ⟨by omega, hp.2⟩
        · refine ⟨wrapX x0 n, ?_, hq⟩
          simp [rowCovers, (eq_wrapX_iff x0 (wrapX x0 n) n (by omega)).mp rfl, hb]
      · rintro ⟨px, hp, hq⟩
        by_cases hc : colOffset x0 px = n
        · have := (eq_wrapX_iff x0 px n (by omega)).mpr hc
          subst this
          exact .inr ⟨by simpa [rowCovers, hc] using hp, hq⟩
        · refine .inl ⟨px, ?_, hq⟩
          simp only [rowCovers, Bool.and_eq_true, decide_eq_true_eq] at hp ⊢
          exact ⟨by omega, hp.2⟩

/-- Whether the sprite rows `bs`, the first of them at row offset r, have a set bit on pixel (px, py). -/
def rowsCover (x0 y0 : Nat) : Nat → List Byte → Fin 64 → Fin 32 → Bool
  | _, [], _, _ => false
  | r, b :: bs, px, py => (rowCovers b x0 8 px && decide (py = wrapY y0 r)) || rowsCover x0 y0 (r + 1) bs px py

/-- Later rows never meet an earlier one. -/
theorem rowsCover_offset (x0 y0 : Nat) (bs : List Byte) (r : Nat) (px : Fin 64) (py : Fin 32)
    (hr : r + bs.length ≤ 32) (h : rowsCover x0 y0 r bs px py = true) : r ≤ rowOffset y0 py := by
  induction bs generalizing r with
  | nil => cases h
  | cons b bs ih =>
    simp only [List.length_cons] at hr
    simp only [rowsCover, Bool.or_eq_true, Bool.and_eq_true, decide_eq_true_eq] at h
    rcases h with ⟨-, h⟩ | h
    · exact ((eq_wrapY_iff y0 py r (by omega)).mp h).ge
    · have := ih (r + 1) (by omega) h; omega

/-- A whole sprite: every covered pixel is toggled, and a collision is seen exactly when a covered pixel was set. -/
theorem drawRows_spec (x0 y0 r : Nat) (bs : List Byte) (acc : Display × Bool) (hr : r + bs.length ≤ 32) :
    (∀ px py, (drawRows x0 y0 r bs acc).1.pixel px py = (acc.1.pixel px py != rowsCover x0 y0 r bs px py)) ∧
    ((drawRows x0 y0 r bs acc).2 = true ↔
      acc.2 = true ∨ ∃ px py, rowsCover x0 y0 r bs px py = true ∧ acc.1.pixel px py = true) := by
  induction bs generalizing r acc with
  | nil => simp [drawRows, rowsCover]
  | cons b bs ih =>
    simp only [List.length_cons] at hr
    obtain ⟨d1, d2⟩ := drawBits_spec b x0 (wrapY y0 r) acc 8 (by omega)
    obtain ⟨i1, i2⟩ := ih (r + 1) (drawRow b x0 (wrapY y0 r) acc) (by omega)
    have apart : ∀ px py, rowsCover x0 y0 (r + 1) bs px py = true → decide (py = wrapY y0 r) = false := by
      intro px py h
      have := rowsCover_offset x0 y0 bs (r + 1) px py (by omega) h
      rw [decide_eq_false_iff_not]
      intro e
      have := (eq_wrapY_iff y0 py r (by omega)).mp e
      omega
    rw [drawRows]
    refine ⟨fun px py => ?_, ?_⟩
    · rw [i1, drawRow, d1, rowsCover]
      cases h : rowsCover x0 y0 (r + 1) bs px py
      · simp
      · simp [apart px py h]
    · rw [i2, drawRow, d2, or_assoc]
      refine or_congr_right ⟨?_, ?_⟩
      · rintro (⟨px, hp, hq⟩ | ⟨px, py, hp, hq⟩)
        · exact ⟨px, _, by simp [rowsCover, hp], hq⟩
        · rw [d1, apart px py hp, Bool.and_false, Bool.bne_false] at hq
          exact ⟨px, py, by simp [rowsCover, hp], hq⟩
      · rintro ⟨px, py, hp, hq⟩
        simp only [rowsCover, Bool.or_eq_true, Bool.and_eq_true, decide_eq_true_eq] at hp
        rcases hp with ⟨hp, rfl⟩ | hp
        · exact .inl ⟨px, hp, hq⟩
        · refine .inr ⟨px, py, hp, ?_⟩
          rw [d1, apart px py hp, Bool.and_false, Bool.bne_false]; exact hq

end Sys2Proof.Machine
end

