-- ==== Sys2Proof/Laws/PerInstr.lean ====
section
/-! SUPPORT. Per instruction: the line R58 and R63 write for it passes every check and stands for it. -/

namespace Sys2Proof.Laws.Assembles

/-- The instruction's own source line assembles back to it. -/
def Statement (i : Instr) : Prop := checkLine i.toSource = .ok (.instr i)

theorem checkReg_toNat (x : Nibble) : checkReg x.toNat = .ok x := by
  have := x.isLt
  rw [checkReg, if_pos (by omega)]; simp

theorem checkByte_toNat (kk : Byte) : checkByte kk.toNat = .ok kk := by
  have := kk.isLt
  rw [checkByte, if_pos (by omega)]; simp

theorem checkAddr_toNat (nnn : Addr12) : checkAddr nnn.toNat = .ok nnn := by
  have := nnn.isLt
  rw [checkAddr, if_pos (by omega)]; simp

theorem checkNibble_toNat (n : Nibble) : checkNibble n.toNat = .ok n := by
  have := n.isLt
  rw [checkNibble, if_pos (by omega)]; simp

theorem formX_toNat (mk : Nibble → Instr) (x : Nibble) : formX mk x.toNat = .ok (mk x) := by
  rw [formX, checkReg_toNat]; rfl

theorem formXY_toNat (mk : Nibble → Nibble → Instr) (x y : Nibble) : formXY mk x.toNat y.toNat = .ok (mk x y) := by
  rw [formXY, checkReg_toNat, checkReg_toNat]; rfl

theorem formXK_toNat (mk : Nibble → Byte → Instr) (x : Nibble) (kk : Byte) :
    formXK mk x.toNat kk.toNat = .ok (mk x kk) := by
  rw [formXK, checkReg_toNat, checkByte_toNat]; rfl

theorem formA_toNat (mk : Addr12 → Instr) (nnn : Addr12) : formA mk nnn.toNat = .ok (mk nnn) := by
  rw [formA, checkAddr_toNat]; rfl

theorem of_form {f : Except SourceError Instr} {i : Instr} (h : f = .ok i) :
    f.map Checked.instr = .ok (.instr i) := by rw [h]; rfl

theorem cls : Statement .cls := rfl
theorem ret : Statement .ret := rfl
theorem jp (nnn : Addr12) : Statement (.jp nnn) := of_form (formA_toNat _ nnn)
theorem call (nnn : Addr12) : Statement (.call nnn) := of_form (formA_toNat _ nnn)
theorem seK (x : Nibble) (kk : Byte) : Statement (.seK x kk) := of_form (formXK_toNat _ x kk)
theorem sneK (x : Nibble) (kk : Byte) : Statement (.sneK x kk) := of_form (formXK_toNat _ x kk)
theorem seV (x y : Nibble) : Statement (.seV x y) := of_form (formXY_toNat _ x y)
theorem ldK (x : Nibble) (kk : Byte) : Statement (.ldK x kk) := of_form (formXK_toNat _ x kk)
theorem addK (x : Nibble) (kk : Byte) : Statement (.addK x kk) := of_form (formXK_toNat _ x kk)
theorem ldV (x y : Nibble) : Statement (.ldV x y) := of_form (formXY_toNat _ x y)
theorem orV (x y : Nibble) : Statement (.orV x y) := of_form (formXY_toNat _ x y)
theorem andV (x y : Nibble) : Statement (.andV x y) := of_form (formXY_toNat _ x y)
theorem xorV (x y : Nibble) : Statement (.xorV x y) := of_form (formXY_toNat _ x y)
theorem addV (x y : Nibble) : Statement (.addV x y) := of_form (formXY_toNat _ x y)
theorem sub (x y : Nibble) : Statement (.sub x y) := of_form (formXY_toNat _ x y)
theorem shr (x y : Nibble) : Statement (.shr x y) := of_form (formXY_toNat _ x y)
theorem subn (x y : Nibble) : Statement (.subn x y) := of_form (formXY_toNat _ x y)
theorem shl (x y : Nibble) : Statement (.shl x y) := of_form (formXY_toNat _ x y)
theorem sneV (x y : Nibble) : Statement (.sneV x y) := of_form (formXY_toNat _ x y)
theorem ldI (nnn : Addr12) : Statement (.ldI nnn) := of_form (formA_toNat _ nnn)
theorem jpV0 (nnn : Addr12) : Statement (.jpV0 nnn) := of_form (formA_toNat _ nnn)
theorem rnd (x : Nibble) (kk : Byte) : Statement (.rnd x kk) := of_form (formXK_toNat _ x kk)
theorem drw (x y n : Nibble) : Statement (.drw x y n) := by
  show Except.map _ ((checkReg x.toNat).bind _) = _
  rw [checkReg_toNat]
  show Except.map _ ((checkReg y.toNat).bind _) = _
  rw [checkReg_toNat]
  show Except.map _ ((checkNibble n.toNat).map _) = _
  rw [checkNibble_toNat]; rfl
theorem skp (x : Nibble) : Statement (.skp x) := of_form (formX_toNat _ x)
theorem sknp (x : Nibble) : Statement (.sknp x) := of_form (formX_toNat _ x)
theorem ldVDt (x : Nibble) : Statement (.ldVDt x) := of_form (formX_toNat _ x)
theorem ldVK (x : Nibble) : Statement (.ldVK x) := of_form (formX_toNat _ x)
theorem ldDtV (x : Nibble) : Statement (.ldDtV x) := of_form (formX_toNat _ x)
theorem ldStV (x : Nibble) : Statement (.ldStV x) := of_form (formX_toNat _ x)
theorem addI (x : Nibble) : Statement (.addI x) := of_form (formX_toNat _ x)
theorem ldF (x : Nibble) : Statement (.ldF x) := of_form (formX_toNat _ x)
theorem ldB (x : Nibble) : Statement (.ldB x) := of_form (formX_toNat _ x)
theorem stRegs (x : Nibble) : Statement (.stRegs x) := of_form (formX_toNat _ x)
theorem ldRegs (x : Nibble) : Statement (.ldRegs x) := of_form (formX_toNat _ x)

end Sys2Proof.Laws.Assembles
end

