-- ==== Sys2Proof/Laws/Safety.lean ====
section
/-! SUPPORT. Small laws of the terms the claims use: frames, and memory overlaid by a store. -/

namespace Sys2Proof.Machine

theorem samePart_refl (p : Part) (s : State) : samePart p s s := by
  cases p <;> first | rfl | exact fun _ => rfl

/-- Nothing changed: every frame holds. -/
theorem KeepsAllBut_refl (changed : List Part) (s : State) : KeepsAllBut changed s s := fun p _ => samePart_refl p s

theorem KeepsRegsBut_refl (changed : List Nibble) (s : State) : KeepsRegsBut changed s s := fun _ _ => rfl

/-- A store of the last + 1 bytes that `stored` lists, read back: memory overlaid by them. -/
theorem byteAt_storeBytes_eq_overlaid (s : State) (last : Nat) (stored : Nat → Byte) (bs : List Byte)
    (hl : bs.length = last + 1) (hb : ∀ k (h : k < bs.length), bs[k] = stored k) (a : Nat) :
    (s.storeBytes (s.dataAddr 0) bs).byteAt a = overlaid s last stored a := by
  rw [State.byteAt_storeBytes, overlaid]
  have hd : s.dataAddr last = s.dataAddr 0 + last := by simp [State.dataAddr]
  by_cases h : s.dataAddr 0 ≤ a ∧ a ≤ s.dataAddr last
  · rw [dif_pos (by omega), if_pos h, hb]
  · rw [dif_neg (by omega), if_neg h]

/-- The overlay does not see pc. -/
@[simp] theorem overlaid_advance (s : State) (last : Nat) (stored : Nat → Byte) (a : Nat) :
    overlaid s.advance last stored a = overlaid s last stored a := rfl

end Sys2Proof.Machine
end

