-- ==== Sys2Proof/Laws/Step.lean ====
section
/-! SUPPORT. What a step can do, said once: its cases in the order of R119, so that no later proof unfolds it. -/

namespace Sys2Proof.Machine

theorem step_faulted (s : State) {f : Fault} (h : s.fault = some f) : step s = .next s := by simp [step, h]

theorem step_waiting (s : State) (h : s.fault = none) (hw : s.waiting = true) :
    step s = .next s.keyWaitStep.endStep := by simp [step, h, hw, finish]

/-- A core that is neither faulted nor waiting makes one cycle. -/
theorem step_eq_cycle (s : State) (h : s.fault = none) (hw : s.waiting = false) : step s = finish (cycle s) := by
  simp [step, h, hw]

/-- A recorded fault is past the end-of-step tick. -/
theorem State.endStep_of_fault (s : State) {f : Fault} (h : s.fault = some f) : s.endStep = s := by
  unfold State.endStep; split <;> [rfl; exact s.tickTimers_faulted h]

theorem step_fetchFault (s : State) (h : s.fault = none) (hw : s.waiting = false) (hp : 0xFFE < s.pc.toNat) :
    step s = .next { s with fault := some (.memoryFault s.pc.toNat .fetch .outOfRange) } := by
  rw [step_eq_cycle s h hw, cycle, s.fetchWord_fault hp]
  exact congrArg _ (State.endStep_of_fault _ rfl)

theorem step_cycle (s : State) (h : s.fault = none) (hw : s.waiting = false) (hp : s.pc.toNat ≤ 0xFFE) :
    step s = finish (execDecoded
      (decodeWord s.params.laxDecode (wordOfBytes (s.byteAt s.pc.toNat) (s.byteAt (s.pc.toNat + 1)))) s) := by
  rw [step_eq_cycle s h hw, cycle, s.fetchWord_ok hp]

/-- Every instruction answers a next state. -/
theorem exec_answers_next (i : Instr) (s : State) : ∃ t, exec i s = .next t := by
  have g : ∀ c b, ∃ t, s.guarded c b = .next t := fun c b => by cases c <;> exact ⟨_, rfl⟩
  cases i with
  | ret => simp only [exec, execRet]; split <;> exact ⟨_, rfl⟩
  | call nnn => simp only [exec, execCall]; split <;> exact ⟨_, rfl⟩
  | skp x => simp only [exec, execSkp]; split <;> exact ⟨_, rfl⟩
  | sknp x => simp only [exec, execSknp]; split <;> exact ⟨_, rfl⟩
  | ldB x => exact g _ _
  | stRegs x => exact g _ _
  | ldRegs x => exact g _ _
  | drw x y n => exact g _ _
  | _ => exact ⟨_, rfl⟩

/-- The cases of a step that answers `t`, in the order of R119, with what each answers. -/
theorem step_cases {s t : State} (h : step s = .next t) :
    (∃ f, s.fault = some f ∧ t = s) ∨
    (s.fault = none ∧ s.waiting = true ∧ t = s.keyWaitStep.endStep) ∨
    (s.fault = none ∧ s.waiting = false ∧ 0xFFE < s.pc.toNat ∧
      t = { s with fault := some (.memoryFault s.pc.toNat .fetch .outOfRange) }) ∨
    (s.fault = none ∧ s.waiting = false ∧ s.pc.toNat ≤ 0xFFE ∧
      ∃ u, t = u.endStep ∧ ((∃ i, exec i s = .next u) ∨ u = s.advance)) := by
  rcases hf : s.fault with _ | f
  · rcases Bool.eq_false_or_eq_true s.waiting with hw | hw
    · rw [step_waiting s hf hw] at h; cases h; exact .inr (.inl ⟨rfl, hw, rfl⟩)
    · by_cases hp : 0xFFE < s.pc.toNat
      · rw [step_fetchFault s hf hw hp] at h; cases h; exact .inr (.inr (.inl ⟨rfl, hw, hp, rfl⟩))
      · rw [step_cycle s hf hw (by omega)] at h
        refine .inr (.inr (.inr ⟨rfl, hw, by omega, ?_⟩))
        rcases hd : decodeWord s.params.laxDecode
            (wordOfBytes (s.byteAt s.pc.toNat) (s.byteAt (s.pc.toNat + 1))) with i | w
        · obtain ⟨u, hu⟩ := exec_answers_next i s
          rw [hd, execDecoded, hu] at h
          cases h
          exact ⟨u, rfl, .inl ⟨i, hu⟩⟩
        · rw [hd, execDecoded] at h
          cases h
          exact ⟨s.advance, rfl, .inr rfl⟩
  · rw [step_faulted s hf] at h; cases h; exact .inl ⟨f, rfl, rfl⟩

end Sys2Proof.Machine
end

