-- ==== Sys2Proof/Tests/Slice0.lean ====
section
/-! SUPPORT. The model's own tests: ill-formed source lines, decoding of written-out words, one step of each instruction
on the vectors of 95_test_vectors.md (their ids are in the comments), and a witness for the hypotheses of each
obligation that has any. -/

open Sys2Proof Sys2Proof.Machine

namespace Sys2Proof.Tests

set_option maxRecDepth 10000

/-! ## WellFormed refuses by name (R63) -/

theorem test_registerRange : checkLine (.op .ld [.v 16, .num 0]) = .error (.registerRange 16) := by decide
theorem test_byteRange : checkLine (.op .add [.v 0, .num 256]) = .error (.byteRange 256) := by decide
theorem test_addressRange : checkLine (.op .call [.num 4096]) = .error (.addressRange 4096) := by decide
theorem test_nibbleRange : checkLine (.op .drw [.v 0, .v 1, .num 16]) = .error (.nibbleRange 16) := by decide
theorem test_wordRange : checkLine (.word 65536) = .error (.wordRange 65536) := by decide
theorem test_noSuchForm : checkLine (.op .sub [.v 0, .num 1]) = .error .noSuchForm := by decide
theorem test_jpOffsetIsV0 : checkLine (.op .jp [.v 1, .num 0x300]) = .error .noSuchForm := by decide
/-- R63: SHR Vx without Vy encodes Y = 0. -/
theorem test_shrOneOperand : assembleLine (.op .shr [.v 0xA]) = .ok 0x8A06 := by decide
/-- Programs P3 and P7: DRW V1, V2, 5 and LD [I], V1 and .word 0x0000. -/
theorem test_assemble : assembleLine (.op .drw [.v 1, .v 2, .num 5]) = .ok 0xD125 ∧
    assembleLine (.op .ld [.atI, .v 1]) = .ok 0xF155 ∧ assembleLine (.word 0) = .ok 0x0000 := by decide
theorem test_disassemble : disassembleWord 0xF155 = .op .ld [.atI, .v 1] ∧ disassembleWord 0x0123 = .word 0x0123 := by
  decide

/-! ## Decoding: a word written out from R58's encoding for every constructor -/

theorem test_decode_0 : decodeWord false 0x00E0 = .instr .cls ∧ decodeWord false 0x00EE = .instr .ret := by decide
theorem test_decode_1 : decodeWord false 0x1ABC = .instr (.jp 0xABC) := by decide
theorem test_decode_2 : decodeWord false 0x2ABC = .instr (.call 0xABC) := by decide
theorem test_decode_3 : decodeWord false 0x3542 = .instr (.seK 5 0x42) := by decide
theorem test_decode_4 : decodeWord false 0x4542 = .instr (.sneK 5 0x42) := by decide
theorem test_decode_5 : decodeWord false 0x5120 = .instr (.seV 1 2) := by decide
theorem test_decode_6 : decodeWord false 0x6A12 = .instr (.ldK 0xA 0x12) := by decide
theorem test_decode_7 : decodeWord false 0x7FFE = .instr (.addK 0xF 0xFE) := by decide
theorem test_decode_8 :
    decodeWord false 0x8AB0 = .instr (.ldV 0xA 0xB) ∧ decodeWord false 0x8AB1 = .instr (.orV 0xA 0xB) ∧
    decodeWord false 0x8AB2 = .instr (.andV 0xA 0xB) ∧ decodeWord false 0x8AB3 = .instr (.xorV 0xA 0xB) ∧
    decodeWord false 0x8AB4 = .instr (.addV 0xA 0xB) ∧ decodeWord false 0x8AB5 = .instr (.sub 0xA 0xB) ∧
    decodeWord false 0x8AB6 = .instr (.shr 0xA 0xB) ∧ decodeWord false 0x8AB7 = .instr (.subn 0xA 0xB) ∧
    decodeWord false 0x8ABE = .instr (.shl 0xA 0xB) := by decide
theorem test_decode_9 : decodeWord false 0x9120 = .instr (.sneV 1 2) := by decide
theorem test_decode_A : decodeWord false 0xA208 = .instr (.ldI 0x208) := by decide
theorem test_decode_B : decodeWord false 0xBFFE = .instr (.jpV0 0xFFE) := by decide
theorem test_decode_C : decodeWord false 0xC30F = .instr (.rnd 3 0x0F) := by decide
theorem test_decode_D : decodeWord false 0xD125 = .instr (.drw 1 2 5) := by decide
theorem test_decode_E :
    decodeWord false 0xE59E = .instr (.skp 5) ∧ decodeWord false 0xE5A1 = .instr (.sknp 5) := by decide
theorem test_decode_F :
    decodeWord false 0xF307 = .instr (.ldVDt 3) ∧ decodeWord false 0xF30A = .instr (.ldVK 3) ∧
    decodeWord false 0xF315 = .instr (.ldDtV 3) ∧ decodeWord false 0xF318 = .instr (.ldStV 3) ∧
    decodeWord false 0xF31E = .instr (.addI 3) ∧ decodeWord false 0xF329 = .instr (.ldF 3) ∧
    decodeWord false 0xF333 = .instr (.ldB 3) ∧ decodeWord false 0xF355 = .instr (.stRegs 3) ∧
    decodeWord false 0xF365 = .instr (.ldRegs 3) := by decide
/-- DC2, DC4, DC5, DC6, DC7, DC8. -/
theorem test_decode_nop :
    decodeWord false 0x0123 = .nop 0x0123 ∧ decodeWord false 0x00E1 = .nop 0x00E1 ∧
    decodeWord false 0x5121 = .nop 0x5121 ∧ decodeWord false 0x9123 = .nop 0x9123 ∧
    decodeWord false 0x812F = .nop 0x812F ∧ decodeWord false 0xE19F = .nop 0xE19F ∧
    decodeWord false 0xF10B = .nop 0xF10B := by decide
/-- DC3, DC4, DC5, DC6 with LAX_DECODE = true. -/
theorem test_decode_lax :
    decodeWord true 0x01E0 = .instr .cls ∧ decodeWord true 0x00E1 = .nop 0x00E1 ∧
    decodeWord true 0x5121 = .instr (.seV 1 2) ∧ decodeWord true 0x9123 = .instr (.sneV 1 2) := by decide
/-- Every word is two bytes (R53): one byte is no instruction, and what follows the word is left over. -/
theorem test_decodeBytes : decodeBytes false [0x6A] = .error .truncated ∧
    decodeBytes false [0x6A, 0x12, 0x70] = .ok (.instr (.ldK 0xA 0x12), [0x70]) := by decide
theorem test_decodeTableWord : decodeTableWord 16 0x8014 = some (.addV 0 1) ∧ decodeTableWord 16 0x0123 = none := by
  decide

/-! ## One step of each instruction, on the vectors of 95_test_vectors.md -/

/-- The reset state with a word at 0x200 and some registers set. -/
def start (w : Nat) (regs : List (Nibble × Byte)) : State :=
  regs.foldl (fun s p => s.setV p.1 p.2) (State.reset.withFetchWord 16 w)

/-- A view of the state after a step; nothing when the step answers no next state. -/
def after {α : Type} (s : State) (view : State → α) : Option α :=
  match step s with
  | .next t => some (view t)
  | _ => none

/-- FLAG_ORDER = FlagLast, LAX_DECODE = true, TIMER_COUPLING = PerStep. -/
def flagLast (s : State) : State := { s with params := { s.params with flagOrder := .flagLast } }
def lax (s : State) : State := { s with params := { s.params with laxDecode := true } }
def perStep (s : State) : State := { s with params := { s.params with timerCoupling := .perStep } }

/-- A display with the given pixels on. -/
def lit (pixels : List (Fin 64 × Fin 32)) : Display := pixels.foldl (fun d p => d.flip p.1 p.2) Display.blank

/-- DC1. -/
theorem test_nop : after (start 0x0000 []) (·.pc) = some 0x202 := by decide
/-- DC3 with LAX_DECODE = true. -/
theorem test_lax_cls : after (lax { start 0x01E0 [] with disp := lit [(5, 5)] })
    (fun t => (t.disp.pixel 5 5, t.dirty, t.pc)) = some (false, true, 0x202) := by decide
/-- DC9. -/
theorem test_fetch_beyond : after { start 0 [] with pc := 0x1000 } (fun t => (t.fault, t.pc)) =
    some (some (.memoryFault 0x1000 .fetch .outOfRange), 0x1000) := by decide
/-- DC11. -/
theorem test_odd_pc : after (State.withFetchWord { State.reset with pc := 0x201 } 16 0x6011)
    (fun t => (t.getV 0, t.pc)) = some (0x11, 0x203) := by decide

/-- DS1. -/
theorem test_cls : after { start 0x00E0 [(0xF, 5)] with disp := lit [(0, 0), (63, 31)] }
    (fun t => (t.disp.pixel 0 0, t.disp.pixel 63 31, t.dirty, t.getV 0xF)) = some (false, false, true, 5) := by decide
/-- CF6. -/
theorem test_ret : after { start 0x00EE [] with sp := 2, stack := (State.reset.stack.set 0 0x204).set 1 0x30A }
    (fun t => (t.pc, t.sp, t.stack[1])) = some (0x30A, 1, 0x30A) := by decide
/-- CF5. -/
theorem test_ret_underflow : after (start 0x00EE []) (fun t => (t.fault, t.pc, t.sp)) =
    some (some (.stackFault .underflow 0), 0x200, 0) := by decide
/-- CF1. -/
theorem test_jp : after (start 0x1234 []) (·.pc) = some 0x234 := by decide
/-- CF3. -/
theorem test_call : after (start 0x2ABC []) (fun t => (t.stack[0], t.sp, t.pc)) = some (0x202, 1, 0xABC) := by decide
/-- CF4. -/
theorem test_call_overflow : after { start 0x2ABC [] with sp := 16 } (fun t => (t.fault, t.pc, t.sp)) =
    some (some (.stackFault .overflow 16), 0x200, 16) := by decide
/-- E9. -/
theorem test_seK : after (start 0x3542 [(5, 0x42)]) (·.pc) = some 0x204 ∧
    after (start 0x3542 [(5, 0x43)]) (·.pc) = some 0x202 := by decide
/-- CF7. -/
theorem test_sneK : after (start 0x4542 [(5, 0x42)]) (·.pc) = some 0x202 ∧
    after (start 0x4542 [(5, 0x43)]) (·.pc) = some 0x204 := by decide
/-- CF8. -/
theorem test_seV : after (start 0x5120 [(1, 9), (2, 9)]) (·.pc) = some 0x204 ∧
    after (start 0x5120 [(1, 9), (2, 0xA)]) (·.pc) = some 0x202 := by decide
/-- CF9. -/
theorem test_sneV : after (start 0x9120 [(1, 9), (2, 9)]) (·.pc) = some 0x202 ∧
    after (start 0x9120 [(1, 9), (2, 0xA)]) (·.pc) = some 0x204 := by decide
/-- CF12, CF13. -/
theorem test_jpV0 : after (start 0xB300 [(0, 0x10)]) (·.pc) = some 0x310 ∧
    after (start 0xBFFF [(0, 0xFF)]) (·.pc) = some 0x10FE := by decide
/-- AL1. -/
theorem test_ldK : after (start 0x6A12 []) (fun t => t.getV 0xA) = some 0x12 := by decide
/-- AL2. -/
theorem test_addK : after (start 0x7002 [(0, 0xFF), (0xF, 0x77)]) (fun t => (t.getV 0, t.getV 0xF)) =
    some (1, 0x77) := by decide
/-- AL5. -/
theorem test_ldV : after (start 0x8010 [(1, 0x55)]) (fun t => t.getV 0) = some 0x55 := by decide
/-- AL6, the three words. -/
theorem test_orV : after (start 0x8011 [(0, 0xF0), (1, 0x0F), (0xF, 0x55)]) (fun t => (t.getV 0, t.getV 0xF)) =
    some (0xFF, 0x55) := by decide
theorem test_andV : after (start 0x8012 [(0, 0xF0), (1, 0x0F), (0xF, 0x55)]) (fun t => (t.getV 0, t.getV 0xF)) =
    some (0, 0x55) := by decide
theorem test_xorV : after (start 0x8013 [(0, 0xF0), (1, 0x0F), (0xF, 0x55)]) (fun t => (t.getV 0, t.getV 0xF)) =
    some (0xFF, 0x55) := by decide
/-- E2, AL8. -/
theorem test_addV : after (start 0x8014 [(0, 0xFF), (1, 1)]) (fun t => (t.getV 0, t.getV 0xF)) = some (0, 1) ∧
    after (start 0x8014 [(0, 0x80), (1, 0x7F)]) (fun t => (t.getV 0, t.getV 0xF)) = some (0xFF, 0) := by decide
/-- AL10. -/
theorem test_addV_vf : after (start 0x8F14 [(0xF, 0x90), (1, 0x80)]) (fun t => t.getV 0xF) = some 1 := by decide
/-- E3, AL14. -/
theorem test_sub : after (start 0x8015 [(0, 1), (1, 2)]) (fun t => (t.getV 0, t.getV 0xF)) = some (0xFF, 0) ∧
    after (start 0x8015 [(0, 6), (1, 5)]) (fun t => (t.getV 0, t.getV 0xF)) = some (1, 1) := by decide
/-- AL15, AL16, both FLAG_ORDERs. -/
theorem test_sub_vf : after (start 0x8F15 [(0xF, 0x10), (1, 5)]) (fun t => t.getV 0xF) = some 0xFC ∧
    after (flagLast (start 0x8F15 [(0xF, 0x10), (1, 5)])) (fun t => t.getV 0xF) = some 1 ∧
    after (start 0x81F5 [(1, 5), (0xF, 3)]) (fun t => (t.getV 1, t.getV 0xF)) = some (4, 1) ∧
    after (flagLast (start 0x81F5 [(1, 5), (0xF, 3)])) (fun t => (t.getV 1, t.getV 0xF)) = some (2, 1) := by decide
/-- AL18, AL19. -/
theorem test_shr : after (start 0x8006 [(0, 0x81)]) (fun t => (t.getV 0, t.getV 0xF)) = some (0x40, 1) ∧
    after (start 0x8016 [(0, 4), (1, 0xFF)]) (fun t => (t.getV 0, t.getV 0xF)) = some (2, 0) := by decide
/-- AL21, both FLAG_ORDERs. -/
theorem test_shr_vf : after (start 0x8F06 [(0xF, 3)]) (fun t => t.getV 0xF) = some 0 ∧
    after (flagLast (start 0x8F06 [(0xF, 3)])) (fun t => t.getV 0xF) = some 1 := by decide
/-- AL22, AL23. -/
theorem test_subn : after (start 0x8017 [(0, 3), (1, 5)]) (fun t => (t.getV 0, t.getV 0xF)) = some (2, 1) ∧
    after (start 0x8017 [(0, 5), (1, 3)]) (fun t => (t.getV 0, t.getV 0xF)) = some (0xFE, 0) := by decide
/-- AL25, AL26, both FLAG_ORDERs. -/
theorem test_subn_vf : after (start 0x8F17 [(0xF, 3), (1, 5)]) (fun t => t.getV 0xF) = some 4 ∧
    after (flagLast (start 0x8F17 [(0xF, 3), (1, 5)])) (fun t => t.getV 0xF) = some 1 ∧
    after (start 0x81F7 [(1, 2), (0xF, 5)]) (fun t => (t.getV 1, t.getV 0xF)) = some (0xFF, 1) ∧
    after (flagLast (start 0x81F7 [(1, 2), (0xF, 5)])) (fun t => (t.getV 1, t.getV 0xF)) = some (3, 1) := by decide
/-- AL27, AL28: VF is bit 0, not bit 7. -/
theorem test_shl : after (start 0x800E [(0, 0x81)]) (fun t => (t.getV 0, t.getV 0xF)) = some (2, 1) ∧
    after (start 0x800E [(0, 0x80)]) (fun t => (t.getV 0, t.getV 0xF)) = some (0, 0) := by decide
/-- AL30, both FLAG_ORDERs. -/
theorem test_shl_vf : after (start 0x8F0E [(0xF, 0x81)]) (fun t => t.getV 0xF) = some 2 ∧
    after (flagLast (start 0x8F0E [(0xF, 0x81)])) (fun t => t.getV 0xF) = some 1 := by decide
/-- AL33: one draw is consumed. The value drawn is free, so it is not tested. -/
theorem test_rnd : after (start 0xC300 []) (fun t => (t.rng, t.pc, t.getV 4)) = some (1, 0x202, 0) := by decide
/-- IM1. -/
theorem test_ldI : after (start 0xA300 []) (·.i) = some 0x300 := by decide
/-- IM3. -/
theorem test_addI : after { start 0xF01E [(0, 1)] with i := 0xFFFF } (fun t => (t.i, t.getV 0xF)) = some (0, 0) := by
  decide
/-- E11, IM5. -/
theorem test_ldF : after (start 0xF029 [(0, 0xA)]) (·.i) = some 0x32 ∧
    after (start 0xF029 [(0, 0xFF)]) (·.i) = some 0x4FB := by decide
/-- E4. -/
theorem test_ldB : after { start 0xF033 [(0, 0xFF)] with i := 0x300 }
    (fun t => (t.byteAt 0x300, t.byteAt 0x301, t.byteAt 0x302, t.i)) = some (2, 5, 5, 0x300) := by decide
/-- IM8. -/
theorem test_ldB_range : after { start 0xF033 [(0, 0xFF)] with i := 0xFFE }
    (fun t => (t.fault, t.byteAt 0xFFE, t.pc)) =
    some (some (.memoryFault 0x1000 .write .outOfRange), 0, 0x200) := by decide
/-- IM11. -/
theorem test_stRegs : after { start 0xF155 [(0, 1), (1, 2)] with i := 0x400 }
    (fun t => (t.byteAt 0x400, t.byteAt 0x401, t.byteAt 0x402, t.i)) = some (1, 2, 0, 0x400) := by decide
/-- IM15: 0x050 is not written either. -/
theorem test_stRegs_font : after { start 0xF155 [(1, 7)] with i := 0x04F } (fun t => (t.fault, t.byteAt 0x050)) =
    some (some (.memoryFault 0x04F .write .fontProtected), 0) := by decide
/-- IM17: the font is readable. -/
theorem test_ldRegs : after (start 0xFF65 []) (fun t => (t.getV 0, t.getV 1, t.getV 6, t.getV 0xF)) =
    some (0xF0, 0x90, 0x60, 0xF0) := by decide
/-- IM18. -/
theorem test_ldRegs_range : after { start 0xF265 [(0, 0x77)] with i := 0xFFE } (fun t => (t.fault, t.getV 0)) =
    some (some (.memoryFault 0x1000 .read .outOfRange), 0x77) := by decide
/-- E8: bit 7 is the leftmost column, and columns wrap. -/
theorem test_drw : after { (start 0xD011 [(0, 60)]).writeByte 0x300 0xF8 with i := 0x300 }
    (fun t => (t.disp.pixel 60 0, t.disp.pixel 63 0, t.disp.pixel 0 0, t.disp.pixel 1 0, t.getV 0xF)) =
    some (true, true, true, false, 0) := by decide
/-- DS7. -/
theorem test_drw_collision : after { (start 0xD011 []).writeByte 0x300 0xC0 with i := 0x300, disp := lit [(0, 0)] }
    (fun t => (t.disp.pixel 0 0, t.disp.pixel 1 0, t.getV 0xF, t.dirty)) = some (false, true, 1, true) := by decide
/-- TI8. -/
theorem test_skp : after { start 0xE09E [(0, 5)] with key := State.reset.key.set 5 true } (·.pc) = some 0x204 ∧
    after (start 0xE09E [(0, 5)]) (·.pc) = some 0x202 := by decide
/-- DC13. -/
theorem test_skp_index : after (start 0xE09E [(0, 0x10)]) (fun t => (t.fault, t.pc)) =
    some (some (.keyIndexFault 0x10), 0x200) := by decide
/-- TI9. -/
theorem test_sknp : after (start 0xE0A1 [(0, 5)]) (·.pc) = some 0x204 ∧
    after { start 0xE0A1 [(0, 5)] with key := State.reset.key.set 5 true } (·.pc) = some 0x202 := by decide
/-- TI10. -/
theorem test_sknp_index : after (start 0xE0A1 [(0, 0x10)]) (·.fault) = some (some (.keyIndexFault 0x10)) := by decide
/-- TI3. -/
theorem test_ldVDt : after { start 0xF107 [] with dt := 4 } (fun t => (t.getV 1, t.dt)) = some (4, 4) := by decide
/-- TI12. -/
theorem test_ldVK : after { start 0xF30A [(3, 0x99)] with key := State.reset.key.set 4 true }
    (fun t => (t.waiting, t.waitReg, t.pc, t.getV 3)) = some (true, 3, 0x202, 0x99) := by decide
/-- TI15. -/
theorem test_keyWait : after { start 0 [] with waiting := true, waitReg := 3, key := (State.reset.key.set 2 true).set 9 true }
    (fun t => (t.getV 3, t.waiting, t.pc)) = some (2, false, 0x200) := by decide
/-- TI1. -/
theorem test_ldDtV : after (start 0xF015 [(0, 7)]) (·.dt) = some 7 := by decide
/-- TI2. -/
theorem test_ldStV : after (start 0xF218 [(2, 0x3C)]) (fun t => (t.st, t.soundActive)) = some (0x3C, true) := by decide

/-! ## The host's transactions -/

/-- TI4, TI5, TI7. -/
theorem test_tick : (State.tickTimers { State.reset with dt := 5 }).dt = 4 ∧
    (State.tickTimers { State.reset with st := 1 }).st = 0 ∧
    (State.tickTimers { State.reset with dt := 5, fault := some (.keyIndexFault 0x10) }).dt = 5 := by decide
/-- TI18, TI20. -/
theorem test_perStep : after (perStep { start 0x6000 [] with dt := 2, st := 1 }) (fun t => (t.dt, t.st)) = some (1, 0) ∧
    after (perStep { start 0 [] with dt := 2, pc := 0xFFF }) (·.dt) = some 2 := by decide
/-- TI13, TI14: Ok and Stalled. -/
theorem test_report : stepReport { State.reset with waiting := true } { State.reset with waiting := true } = .stalled ∧
    stepReport { State.reset with waiting := true } State.reset = .ok ∧
    stepReport State.reset { State.reset with waiting := true } = .ok := by decide
/-- E12, LR4. -/
theorem test_load : (match boot defaultParams [0x6A, 0x12] with
      | .ok s => after s fun t => (t.getV 0xA, t.pc)
      | .programTooLarge _ => none) = some (0x12, 0x202) ∧
    boot defaultParams (List.replicate 0xE01 0) = .programTooLarge 0xE01 := by
  refine ⟨by decide, ?_⟩
  rw [boot, State.load, List.length_replicate, if_pos (by decide)]
/-- TI21, TI22, and `read_display` of a single pixel. -/
theorem test_host : (State.setKey { State.reset with fault := some (.keyIndexFault 0x10) } 3 true).key[3] = false ∧
    (State.setKey State.reset 3 true).key[3] = true ∧ (State.clearDirty { State.reset with dirty := true }).dirty = false ∧
    (State.readDisplay { State.reset with disp := lit [(3, 2)] })[131]? = some true := by decide

/-! ## Witnesses: a state and operands that meet the hypotheses of each obligation, at the boundary values of each
clause. A statement that is not listed here has no hypothesis. -/

theorem test_witness_DecodeOfEncodeIsTheInstruction : Instr.wellFormed (.drw 0xF 0xF 0xF) = true ∧
    Instr.wellFormed (.call 0xFFF) = true ∧ Instr.wellFormed (.rnd 0 0xFF) = true := by decide

theorem test_witness_StrictDecodeReadsOnlyEncodings : decodeWord false 0xFF65 = .instr (.ldRegs 0xF) := by decide

/-- Each clause of R60 at the ends of its ranges. -/
theorem test_witness_NopWordsAreTheWordsOutsideTheMap :
    [0x0000, 0x00DF, 0x00E1, 0x00EF, 0x0FFF, 0x5001, 0x9FFF, 0x8008, 0x800D, 0x8FFF].map (decodeWord false) =
      [.nop 0x0000, .nop 0x00DF, .nop 0x00E1, .nop 0x00EF, .nop 0x0FFF, .nop 0x5001, .nop 0x9FFF, .nop 0x8008,
        .nop 0x800D, .nop 0x8FFF] ∧
    [0xE09D, 0xE09F, 0xE0A2, 0xF000, 0xFFFF].map (decodeWord false) =
      [.nop 0xE09D, .nop 0xE09F, .nop 0xE0A2, .nop 0xF000, .nop 0xFFFF] := by decide

/-- One word for each clause. -/
theorem test_witness_LaxDecodeWidensOnlyThreeFamilies :
    decodeWord true 0xFFFF = decodeWord false 0xFFFF ∧ decodeWord true 0x0FE0 = .instr .cls ∧
    decodeWord true 0x0FEE = .instr .ret ∧ decodeWord true 0x0FFF = .nop 0x0FFF ∧
    decodeWord true 0x5FFF = .instr (.seV 0xF 0xF) ∧ decodeWord true 0x90FF = .instr (.sneV 0 0xF) := by decide

/-- A core at the last pc that can fetch, with a word there. -/
def atEnd (w : Nat) : State := State.withFetchWord { State.reset with pc := 0xFFE } 16 w

/-- Neither faulted nor waiting, and the word at pc decodes to d. -/
def readyFor (s : State) (d : Decoded) : Prop :=
  s.fault = none ∧ s.waiting = false ∧ s.pc.toNat ≤ 0xFFE ∧
  decodeWord s.params.laxDecode (wordOfBytes (s.byteAt s.pc.toNat) (s.byteAt (s.pc.toNat + 1))) = d

theorem test_witness_StepRunsTheDecodedInstruction : readyFor (atEnd 0x6011) (.instr (.ldK 0 0x11)) ∧
    readyFor (perStep (atEnd 0x6011)) (.instr (.ldK 0 0x11)) ∧
    exec (.ldK 0 0x11) (atEnd 0x6011) = .next ((atEnd 0x6011).advance.setV 0 0x11) := by
  refine ⟨?_, ?_, rfl⟩ <;> unfold readyFor <;> decide

theorem test_witness_NopWordOnlyAdvancesPc : readyFor (atEnd 0xF10B) (.nop 0xF10B) ∧
    readyFor (perStep (atEnd 0xF10B)) (.nop 0xF10B) := by
  constructor <;> unfold readyFor <;> decide

theorem test_witness_FetchIsBigEndianAndFaultsBeyondMemory : (atEnd 0x6011).pc.toNat ≤ 0xFFE ∧
    after { State.reset with pc := 0xFFF } (·.fault) = some (some (.memoryFault 0xFFF .fetch .outOfRange)) ∧
    after { State.reset with pc := 0xFFFF } (·.fault) = some (some (.memoryFault 0xFFFF .fetch .outOfRange)) := by
  decide

/-- One state for each outcome: faulted; waiting, without and with a key; pc = 0xFFF; a completion and an instruction
fault at pc = 0xFFE. -/
theorem test_witness_StepHasExactlyFiveOutcomes :
    after { State.reset with fault := some (.keyIndexFault 0x10) } (·.fault) = some (some (.keyIndexFault 0x10)) ∧
    after { State.reset with waiting := true } (·.waiting) = some true ∧
    after { State.reset with waiting := true, key := State.reset.key.set 0xF true } (·.waiting) = some false ∧
    after { State.reset with pc := 0xFFF } (·.fault) = some (some (.memoryFault 0xFFF .fetch .outOfRange)) ∧
    after (atEnd 0x6011) (·.fault) = some none ∧
    after (atEnd 0x00EE) (·.fault) = some (some (.stackFault .underflow 0)) := by decide

/-- A view of the state an instruction answers; nothing when it answers none. -/
def execView {α : Type} (i : Instr) (s : State) (view : State → α) : Option α :=
  match exec i s with
  | .next t => some (view t)
  | _ => none

/-- One state for each instruction that can fault. -/
theorem test_witness_InstructionFaultsArePreciseAndOfOneKind :
    execView (.call 0) { State.reset with sp := 16 } (·.fault) = some (some (.stackFault .overflow 16)) ∧
    execView .ret State.reset (·.fault) = some (some (.stackFault .underflow 0)) ∧
    execView (.skp 0) (State.reset.setV 0 0x10) (·.fault) = some (some (.keyIndexFault 0x10)) ∧
    execView (.sknp 0) (State.reset.setV 0 0xFF) (·.fault) = some (some (.keyIndexFault 0xFF)) ∧
    execView (.drw 0 0 1) { State.reset with i := 0x1000 } (·.fault) =
      some (some (.memoryFault 0x1000 .read .outOfRange)) ∧
    execView (.ldRegs 0) { State.reset with i := 0xFFFF } (·.fault) =
      some (some (.memoryFault 0xFFFF .read .outOfRange)) ∧
    execView (.ldB 0) { State.reset with i := 0x04F } (·.fault) =
      some (some (.memoryFault 0x04F .write .fontProtected)) ∧
    execView (.ldB 0) { State.reset with i := 0xFFF } (·.fault) =
      some (some (.memoryFault 0x1000 .write .outOfRange)) ∧
    execView (.stRegs 0) State.reset (·.fault) = some (some (.memoryFault 0 .write .fontProtected)) ∧
    execView (.stRegs 0xF) { State.reset with i := 0xFF1 } (·.fault) =
      some (some (.memoryFault 0x1000 .write .outOfRange)) := by decide

/-- Reached by a step: 00EE at reset. -/
theorem test_witness_FaultedCoreIsAbsorbing : after (start 0x00EE []) (·.fault) = some (some (.stackFault .underflow 0)) :=
  by decide

theorem test_witness_WaitingCoreTakesTheLowestPressedKey :
    (∀ k : Fin 16, State.reset.key[k] = false) ∧ (State.reset.key.set 0 true)[0] = true ∧
    (State.reset.key.set 15 true)[15] = true ∧
    (∀ j : Fin 16, j < 15 → (State.reset.key.set 15 true)[j] = false) ∧
    State.reset.params.timerCoupling = .decoupled ∧ (perStep State.reset).params.timerCoupling = .perStep := by decide

theorem test_witness_PerStepIsTheDecoupledStepAndThenATick :
    (perStep (start 0x6011 [])).params.timerCoupling = .perStep ∧ ∃ t, step { perStep (start 0x6011 []) with
      params := { (perStep (start 0x6011 [])).params with timerCoupling := .decoupled } } = .next t := ⟨rfl, _, rfl⟩

/-- A state that meets the invariant with every clause in use: a listed cell, a return address, a recorded fault. -/
def invState : State :=
  { start 0x00EE [] with
    pc := 0x10FE, sp := 2, stack := (State.reset.stack.set 0 0x002).set 1 0x1000,
    fault := some (.memoryFault 0x10FE .fetch .outOfRange) }

theorem test_inv : Inv invState where
  memoryCanonical := by decide
  fontIntact := by
    have h : ∀ a : Fin 80, invState.byteAt a.val = unlistedByte invState.params.font a.val := by decide
    exact fun a ha => h ⟨a, ha⟩
  pcReach := by decide
  returnsReach := by
    have h : ∀ k : Fin 16, k.val < invState.sp.val →
        2 ≤ invState.stack[k].toNat ∧ invState.stack[k].toNat ≤ 0x1000 := by decide
    exact fun k hk h' => h ⟨k, hk⟩ h'
  faultLegal := by
    rintro f h
    cases h
    exact ⟨by decide, by decide⟩

/-- The same state before its fault, about to return: it meets the invariant and steps. -/
theorem test_witness_EveryStepKeepsTheInvariant :
    Inv { invState with fault := none, pc := 0x200 } ∧
    ∃ t, step { invState with fault := none, pc := 0x200 } = .next t :=
  ⟨{ test_inv with pcReach := by decide, faultLegal := by rintro f h; cases h }, _, rfl⟩

theorem test_witness_EveryHostRunAfterBootKeepsTheInvariant :
    (∃ s, boot defaultParams [0x6A, 0x12] = .ok s) ∧ ∃ s, boot defaultParams [] = .ok s := ⟨⟨_, rfl⟩, _, rfl⟩

/-- Both storing instructions, at 0x050 and at 0xFFF. -/
theorem test_witness_OnlyTwoInstructionsStoreToMemory :
    execView (.ldB 0) ({ State.reset with i := 0x050 }.setV 0 0xC8) (·.byteAt 0x050) = some 2 ∧
    execView (.stRegs 0xF) ({ State.reset with i := 0xFF0 }.setV 0xF 7) (·.byteAt 0xFFF) = some 7 ∧
    State.byteAt State.reset 0x050 = 0 ∧ State.byteAt State.reset 0xFFF = 0 := by decide

/-- One instruction for each clause, from states that it changes. -/
theorem test_witness_SpecialStateHasOnlyItsWriters :
    execView (.ldI 1) State.reset (·.i) = some 1 ∧ execView (.addI 0) (State.reset.setV 0 1) (·.i) = some 1 ∧
    execView (.ldF 0) (State.reset.setV 0 1) (·.i) = some 5 ∧
    execView (.call 0) State.reset (fun t => (t.stack[0], t.sp)) = some (0x202, 1) ∧
    execView .ret { State.reset with sp := 1 } (·.sp) = some 0 ∧
    execView (.ldDtV 0) (State.reset.setV 0 1) (·.dt) = some 1 ∧
    execView (.ldStV 0) (State.reset.setV 0 1) (·.st) = some 1 ∧
    execView (.drw 0 0 1) State.reset (fun t => (t.disp.pixel 0 0, t.dirty)) = some (true, true) ∧
    execView .cls State.reset (·.dirty) = some true ∧
    execView (.ldVK 1) State.reset (fun t => (t.waiting, t.waitReg)) = some (true, 1) ∧
    execView (.rnd 0 0) State.reset (·.rng) = some 1 ∧ execView (.jp 0) State.reset (·.pc) = some 0 ∧
    execView (.seK 0 0) State.reset (·.pc) = some 0x204 := by decide

/-- One register change for each kind of writer. -/
theorem test_witness_OnlyDestinationAndFlagRegistersChange :
    execView (.ldK 5 1) State.reset (·.getV 5) = some 1 ∧
    execView (.shr 5 0) (State.reset.setV 5 1) (fun t => (t.getV 5, t.getV 0xF)) = some (0, 1) ∧
    execView (.drw 0 0 1) { State.reset with disp := lit [(0, 0)] } (·.getV 0xF) = some 1 ∧
    execView (.ldRegs 0xF) State.reset (fun t => (t.getV 0, t.getV 0xF)) = some (0xF0, 0xF0) := by decide

theorem test_witness_OnlyTwoInstructionsReadTheKeys : (∀ x, Instr.ldVK 3 ≠ .skp x) ∧ (∀ x, Instr.ldVK 3 ≠ .sknp x) ∧
    ∃ t, exec (.ldVK 3) State.reset = .next t := ⟨by decide, by decide, _, rfl⟩

/-- The program of CF2, a jump to itself at 0x200; and the one target beyond 0xFFE. -/
theorem test_witness_JumpGoesToItsAddress : State.reset.pc.toNat = (0x200 : Addr12).toNat ∧
    0xFFE < (0xFFF : Addr12).toNat ∧ execView (.jp 0x200) State.reset (fun t => decide (t = State.reset)) = some true := by
  decide

/-- The lowest and the highest target beyond 0xFFE. -/
theorem test_witness_JumpWithOffsetAddsVZero : State.reset.fault = none ∧ State.reset.waiting = false ∧
    execView (.jpV0 0xFFF) State.reset (·.pc) = some 0xFFF ∧
    execView (.jpV0 0xFFF) (State.reset.setV 0 0xFF) (·.pc) = some 0x10FE := by decide

/-- sp = 0, 15 and 16. -/
theorem test_witness_CallPushesTheReturnAddress :
    execView (.call 0xABC) State.reset (·.sp) = some 1 ∧
    execView (.call 0xABC) { State.reset with sp := 15 } (fun t => (t.sp, t.stack[15])) = some (16, 0x202) ∧
    execView (.call 0xABC) { State.reset with sp := 16 } (·.sp) = some 16 := by decide

/-- k = 0, k = 15 and no entry. -/
theorem test_witness_ReturnPopsIntoPc :
    execView .ret { State.reset with sp := 1 } (fun t => (t.sp, t.fault)) = some (0, none) ∧
    execView .ret { State.reset with sp := 16 } (fun t => (t.sp, t.fault)) = some (15, none) ∧
    execView .ret State.reset (·.pc) = some 0x200 := by decide

theorem test_witness_ReturnUndoesCall : ({ State.reset with sp := 15 } : State).sp.val < 16 ∧
    ∃ t, exec (.call 0xABC) { State.reset with sp := 15 } = .next t := ⟨by decide, _, rfl⟩

/-- The clauses of 8XY4 to 8XY7 and 8XYE: X and Y are any registers, and both FLAG_ORDERs exist. test_addV,
test_sub_vf, test_subn_vf, test_shr_vf and test_shl_vf run the instructions in each. -/
theorem test_witness_FlagInstructions : (0xE : Nibble) ≠ 0xF ∧ State.reset.params.flagOrder = .asListed ∧
    (flagLast State.reset).params.flagOrder = .flagLast ∧
    execView (.sub 0xF 0xF) (State.reset.setV 0xF 0x42) (·.getV 0xF) = some 0 ∧
    execView (.subn 0xF 0xF) (flagLast (State.reset.setV 0xF 0x42)) (·.getV 0xF) = some 0 := by decide

theorem test_witness_FlagOrderShowsOnlyWhenVfIsAnOperand :
    (∀ x y, Instr.sub 0 0xE = .sub x y ∨ Instr.sub 0 0xE = .subn x y → x ≠ 0xF ∧ y ≠ 0xF) ∧
    (∀ x y, Instr.shr 0xE 0xF = .shr x y ∨ Instr.shr 0xE 0xF = .shl x y → x ≠ 0xF) ∧
    ∃ t, exec (.sub 0 0xE) { State.reset with params := { State.reset.params with flagOrder := .asListed } } = .next t := by
  refine ⟨?_, ?_, _, rfl⟩
  · rintro x y (h | h) <;> cases h; decide
  · rintro x y (h | h) <;> cases h; decide

/-- The first and last I that store, and the I next to them that fault. -/
theorem test_witness_DecimalDigitsAreStoredOrNothingIs :
    execView (.ldB 0) { State.reset with i := 0x050 } (·.fault) = some none ∧
    execView (.ldB 0) { State.reset with i := 0xFFD } (·.fault) = some none ∧
    execView (.ldB 0) { State.reset with i := 0x000 } (·.fault) = some (some (.memoryFault 0 .write .fontProtected)) ∧
    execView (.ldB 0) { State.reset with i := 0x04F } (·.fault) = some (some (.memoryFault 0x04F .write .fontProtected)) ∧
    execView (.ldB 0) { State.reset with i := 0xFFE } (·.fault) = some (some (.memoryFault 0x1000 .write .outOfRange)) ∧
    execView (.ldB 0) { State.reset with i := 0xFFFF } (·.fault) = some (some (.memoryFault 0xFFFF .write .outOfRange)) := by decide

theorem test_witness_RegistersAreStoredOrNothingIs :
    execView (.stRegs 0xF) { State.reset with i := 0x050 } (·.fault) = some none ∧
    execView (.stRegs 0xF) { State.reset with i := 0xFF0 } (·.fault) = some none ∧
    execView (.stRegs 0xF) { State.reset with i := 0x000 } (·.fault) = some (some (.memoryFault 0 .write .fontProtected)) ∧
    execView (.stRegs 0xF) { State.reset with i := 0x04F } (·.fault) = some (some (.memoryFault 0x04F .write .fontProtected)) ∧
    execView (.stRegs 0xF) { State.reset with i := 0xFF1 } (·.fault) = some (some (.memoryFault 0x1000 .write .outOfRange)) ∧
    execView (.stRegs 0xF) { State.reset with i := 0xFFFF } (·.fault) = some (some (.memoryFault 0xFFFF .write .outOfRange)) := by decide

theorem test_witness_RegistersAreLoadedOrNoneIs :
    execView (.ldRegs 0xF) { State.reset with i := 0x000 } (·.fault) = some none ∧
    execView (.ldRegs 0xF) { State.reset with i := 0xFF0 } (·.fault) = some none ∧
    execView (.ldRegs 0xF) { State.reset with i := 0xFF1 } (·.fault) = some (some (.memoryFault 0x1000 .read .outOfRange)) ∧
    execView (.ldRegs 0xF) { State.reset with i := 0xFFFF } (·.fault) = some (some (.memoryFault 0xFFFF .read .outOfRange)) := by decide

/-- u is the stored state itself. -/
theorem test_witness_StoreThenLoadRestoresRegisters : ∃ t, 0x050 ≤ State.dataAddr { State.reset with i := 0xFF0 } 0 ∧
    State.dataAddr { State.reset with i := 0xFF0 } (0xF : Nibble).toNat ≤ 0xFFF ∧
    exec (.stRegs 0xF) { State.reset with i := 0xFF0 } = .next t ∧ t.i = 0xFF0 :=
  ⟨_, by decide, by decide, rfl, by decide⟩

/-- FX33 and FX55 at the end of memory; u is the stored state with pc at the start of the stored bytes, one byte before
them, and at 0x200, outside them. -/
theorem test_witness_FetchSeesStoredBytes :
    (∃ t, 0x050 ≤ State.dataAddr { State.reset with i := 0xFFD } 0 ∧
      State.dataAddr { State.reset with i := 0xFFD } 2 ≤ 0xFFF ∧
      exec (.ldB 0) { State.reset with i := 0xFFD } = .next t ∧
      ∀ a, State.byteAt { t with pc := 0xFFC } a = t.byteAt a) ∧
    (∃ t, 0x050 ≤ State.dataAddr { State.reset with i := 0xFFE } 0 ∧
      State.dataAddr { State.reset with i := 0xFFE } (1 : Nibble).toNat ≤ 0xFFF ∧
      exec (.stRegs 1) { State.reset with i := 0xFFE } = .next t ∧
      (∀ a, State.byteAt { t with pc := 0xFFE } a = t.byteAt a) ∧ ∀ a, State.byteAt { t with pc := 0x200 } a = t.byteAt a) ∧
    (0xFFE : Word).toNat ≤ 0xFFE :=
  ⟨⟨_, by decide, by decide, rfl, fun _ => rfl⟩, ⟨_, by decide, by decide, rfl, fun _ => rfl, fun _ => rfl⟩, by decide⟩

/-- The last sprite that fits, N = 0 at any I, and the first that does not fit; a pixel hit and a pixel missed. -/
theorem test_witness_DrawXorsTheWrappedSprite :
    State.dataAddr { State.reset with i := 0xFF1 } (0xF : Nibble).toNat ≤ 0x1000 ∧
    execView (.drw 0 0 0) { State.reset with i := 0xFFFF } (·.fault) = some none ∧
    0x1000 < State.dataAddr { State.reset with i := 0xFF2 } (0xF : Nibble).toNat ∧
    spriteCovers State.reset 0 0 1 0 0 = true ∧ spriteCovers State.reset 0 0 1 4 0 = false ∧
    (lit [(0, 0)]).pixel 0 0 = true := by decide

/-- The font's glyph 0 at the origin of a blank display. -/
theorem test_witness_DrawingTwiceRestoresTheDisplay : (0 : Nibble) ≠ 0xF ∧
    State.dataAddr State.reset (5 : Nibble).toNat ≤ 0x1000 ∧ (∀ px py, State.reset.disp.pixel px py = false) ∧
    spriteCovers State.reset 0 0 5 0 0 = true ∧ ∃ t, exec (.drw 0 0 5) State.reset = .next t := by
  refine ⟨by decide, by decide, fun px py => ?_, by decide, _, rfl⟩
  simp [State.reset, Display.pixel]

/-- V[X] = 0, 0xF, 0x10 and 0xFF. -/
theorem test_witness_KeySkipsReadTheNamedKey :
    ((State.reset.setV 2 0).getV 2).toNat = (0 : Fin 16).val ∧
    ((State.reset.setV 2 0xF).getV 2).toNat = (15 : Fin 16).val ∧ 0xF < ((State.reset.setV 2 0x10).getV 2).toNat ∧
    0xF < ((State.reset.setV 2 0xFF).getV 2).toNat := by decide

theorem test_witness_RandomAndTimerClauses : State.reset.fault = none ∧ (State.reset.setV 0xF 1).getV 0xF = 1 ∧
    ∃ kk : Byte, kk = 0 := by decide

theorem test_witness_TickDecrementsBothTimersFlooredAtZero : State.reset.fault = none ∧ invState.fault ≠ none := by decide

theorem test_witness_LoadPlacesTheImageOrRejectsIt : (List.replicate 0xE00 (0xAA : Byte)).length ≤ 0xE00 ∧
    0xE00 < (List.replicate 0xE01 (0xAA : Byte)).length := by
  rw [List.length_replicate, List.length_replicate]; decide

theorem test_witness_HostWritesOneKeyOrClearsDirty : State.reset.fault = none := rfl

/-- A booted core, and a state that meets the invariant with a transaction that moves it (`boot` and Inv are shown in
test_witness_EveryHostRunAfterBootKeepsTheInvariant and test_witness_EveryStepKeepsTheInvariant). -/
theorem test_witness_EveryTransactionKeepsTheInvariant : (∃ s, boot defaultParams [0x6A, 0x12] = .ok s) ∧
    Inv { invState with fault := none, pc := 0x200 } ∧
    (∃ t, transact .step { invState with fault := none, pc := 0x200 } = .next t) ∧
    ∃ t, transact (.setKey 0xF true) { invState with fault := none, pc := 0x200 } = .next t :=
  ⟨⟨_, rfl⟩, test_witness_EveryStepKeepsTheInvariant.1, ⟨_, rfl⟩, _, rfl⟩

end Sys2Proof.Tests
end

section
/-! Jumps and conditional skips (41_control_flow.md R67, R69, R71 to R74): how their words decode, what they answer, and
the frame they share, which is that of a move of pc alone. -/

namespace Sys2Proof.Machine

/-! ### Encodings -/

theorem encodes_jp (nnn : Addr12) : Encodes (0x1#4 ++ nnn) (.jp nnn) := fun lax => by simp [decodeWord]

theorem encodes_seK (x : Nibble) (kk : Byte) : Encodes (0x3#4 ++ x ++ kk) (.seK x kk) := fun lax => by
  simp [decodeWord]

theorem encodes_sneK (x : Nibble) (kk : Byte) : Encodes (0x4#4 ++ x ++ kk) (.sneK x kk) := fun lax => by
  simp [decodeWord]

/-- With N = 0, families 0x5 and 0x9 decode the same under both values of LAX_DECODE (R59). -/
theorem decodeN0_formatXYN (lax : Bool) (a x y : Nibble) (mk : Nibble → Nibble → Instr) :
    decodeN0 lax (a ++ x ++ y ++ 0x0#4) mk = .instr (mk x y) := by simp [decodeN0]

theorem encodes_seV (x y : Nibble) : Encodes (0x5#4 ++ x ++ y ++ 0x0#4) (.seV x y) := fun lax => by
  simp [decodeWord, decodeN0_formatXYN]

theorem encodes_sneV (x y : Nibble) : Encodes (0x9#4 ++ x ++ y ++ 0x0#4) (.sneV x y) := fun lax => by
  simp [decodeWord, decodeN0_formatXYN]

/-! ### What the instructions answer -/

theorem exec_jp (nnn : Addr12) (s : State) : exec (.jp nnn) s = .next (s.jumpTo (addrWord nnn)) := rfl

theorem exec_seK (x : Nibble) (kk : Byte) (s : State) :
    exec (.seK x kk) s = .next (s.advance.skipIf (s.getV x == kk)) := rfl

theorem exec_sneK (x : Nibble) (kk : Byte) (s : State) :
    exec (.sneK x kk) s = .next (s.advance.skipIf (s.getV x != kk)) := rfl

theorem exec_seV (x y : Nibble) (s : State) :
    exec (.seV x y) s = .next (s.advance.skipIf (s.getV x == s.getV y)) := rfl

theorem exec_sneV (x y : Nibble) (s : State) :
    exec (.sneV x y) s = .next (s.advance.skipIf (s.getV x != s.getV y)) := rfl

/-! ### Moves of pc -/

/-- `zext_16` keeps the number (R56). -/
@[simp] theorem addrWord_toNat (nnn : Addr12) : (addrWord nnn).toNat = nnn.toNat :=
  BitVec.toNat_setWidth_of_le (by decide)

/-- A jump changes pc and nothing else (R69). -/
theorem KeepsAllBut_jumpTo (s : State) (a : Word) : KeepsAllBut [.pc] s (s.jumpTo a) := by
  intro p hp
  cases p with
  | pc => exact absurd (List.mem_singleton_self _) hp
  | mem => exact s.byteAt_jumpTo a
  | v => exact s.getV_jumpTo a
  | _ => rfl

@[simp] theorem State.jumpTo_pc_self (s : State) : s.jumpTo s.pc = s := rfl

/-- A skip after the pre-advance is one move of pc, by 4 when it is taken and by 2 when it is not (R67). -/
theorem State.advance_skipIf_eq (s : State) (c : Bool) :
    s.advance.skipIf c = s.jumpTo (if c then s.pc + 4 else s.pc + 2) := by
  cases c
  · rfl
  · have twice : s.pc + 2 + 2 = s.pc + 4 := BitVec.add_assoc ..
    exact congrArg s.jumpTo twice

/-- What every instruction that skips on condition `c` does (R67, R71 to R74). -/
theorem exec_skip_spec {i : Instr} {s : State} {c : Bool} (h : exec i s = .next (s.advance.skipIf c)) :
    ∃ t, exec i s = .next t ∧ KeepsAllBut [.pc] s t ∧ t.pc = if c then s.pc + 4 else s.pc + 2 := by
  rw [s.advance_skipIf_eq c] at h
  exact ⟨_, h, KeepsAllBut_jumpTo s _, rfl⟩

/-- A skip when two bytes are equal. -/
theorem exec_skipEq_spec {i : Instr} {s : State} {a b : Byte} (h : exec i s = .next (s.advance.skipIf (a == b))) :
    ∃ t, exec i s = .next t ∧ KeepsAllBut [.pc] s t ∧
      t.pc = if a.toNat = b.toNat then s.pc + 4 else s.pc + 2 := by
  simpa only [beq_iff_eq, BitVec.toNat_inj] using exec_skip_spec h

/-- A skip when two bytes differ. -/
theorem exec_skipNe_spec {i : Instr} {s : State} {a b : Byte} (h : exec i s = .next (s.advance.skipIf (a != b))) :
    ∃ t, exec i s = .next t ∧ KeepsAllBut [.pc] s t ∧
      t.pc = if a.toNat = b.toNat then s.pc + 2 else s.pc + 4 := by
  simpa only [bne_iff_ne, ne_eq, ite_not, BitVec.toNat_inj] using exec_skip_spec h

/-! ### The obligations -/

/-- Settles O21: the jump is one move of pc to NNN, and a fetch beyond 0xFFE fails. -/
theorem jumpGoesToItsAddress : Obligations.JumpGoesToItsAddress := by
  intro s nnn
  refine ⟨encodes_jp nnn, _, exec_jp nnn s, addrWord_toNat nnn, KeepsAllBut_jumpTo s _, ?self, ?beyond⟩
  case self =>
    intro hpc
    have target : addrWord nnn = s.pc := BitVec.eq_of_toNat_eq (by rw [addrWord_toNat, hpc])
    rw [target, State.jumpTo_pc_self]
  case beyond =>
    intro hnnn
    exact ⟨_, _, State.fetchWord_fault _ (by simpa using hnnn)⟩

/-- Settles O26: each of the four skips is a move of pc on an equality of two bytes. -/
theorem skipsMoveOverOneWord : Obligations.SkipsMoveOverOneWord := by
  intro s x y kk
  exact ⟨encodes_seK x kk, encodes_sneK x kk, encodes_seV x y, encodes_sneV x y,
    exec_skipEq_spec (exec_seK x kk s), exec_skipNe_spec (exec_sneK x kk s),
    exec_skipEq_spec (exec_seV x y s), exec_skipNe_spec (exec_sneV x y s)⟩

end Sys2Proof.Machine
end

section
/-! Register loads, logic and addition (42_register_alu.md R79 to R85): how their words decode, what they answer, and the
frame they share, which is that of a write to registers and the pre-advance. -/

namespace Sys2Proof.Machine

/-! ### Encodings -/

theorem encodes_ldK (x : Nibble) (kk : Byte) : Encodes (0x6#4 ++ x ++ kk) (.ldK x kk) := fun lax => by
  simp [decodeWord]

theorem encodes_addK (x : Nibble) (kk : Byte) : Encodes (0x7#4 ++ x ++ kk) (.addK x kk) := fun lax => by
  simp [decodeWord]

/-- Family 0x8 is decoded on N alone, whatever LAX_DECODE is (R57, R59). -/
theorem encodes_of_decode8 {x y n : Nibble} {i : Instr} (h : decode8 (0x8#4 ++ x ++ y ++ n) = .instr i) :
    Encodes (0x8#4 ++ x ++ y ++ n) i := fun lax => by
  simpa [decodeWord] using h

theorem encodes_ldV (x y : Nibble) : Encodes (0x8#4 ++ x ++ y ++ 0x0#4) (.ldV x y) :=
  encodes_of_decode8 (by simp [decode8])

theorem encodes_orV (x y : Nibble) : Encodes (0x8#4 ++ x ++ y ++ 0x1#4) (.orV x y) :=
  encodes_of_decode8 (by simp [decode8])

theorem encodes_andV (x y : Nibble) : Encodes (0x8#4 ++ x ++ y ++ 0x2#4) (.andV x y) :=
  encodes_of_decode8 (by simp [decode8])

theorem encodes_xorV (x y : Nibble) : Encodes (0x8#4 ++ x ++ y ++ 0x3#4) (.xorV x y) :=
  encodes_of_decode8 (by simp [decode8])

theorem encodes_addV (x y : Nibble) : Encodes (0x8#4 ++ x ++ y ++ 0x4#4) (.addV x y) :=
  encodes_of_decode8 (by simp [decode8])

/-! ### What the instructions answer -/

theorem exec_ldK (x : Nibble) (kk : Byte) (s : State) : exec (.ldK x kk) s = .next (s.advance.setV x kk) := rfl

theorem exec_addK (x : Nibble) (kk : Byte) (s : State) :
    exec (.addK x kk) s = .next (s.advance.setV x (s.getV x + kk)) := rfl

theorem exec_ldV (x y : Nibble) (s : State) : exec (.ldV x y) s = .next (s.advance.setV x (s.getV y)) := rfl

theorem exec_orV (x y : Nibble) (s : State) :
    exec (.orV x y) s = .next (s.advance.setV x (s.getV x ||| s.getV y)) := rfl

theorem exec_andV (x y : Nibble) (s : State) :
    exec (.andV x y) s = .next (s.advance.setV x (s.getV x &&& s.getV y)) := rfl

theorem exec_xorV (x y : Nibble) (s : State) :
    exec (.xorV x y) s = .next (s.advance.setV x (s.getV x ^^^ s.getV y)) := rfl

theorem exec_addV (x y : Nibble) (s : State) : exec (.addV x y) s =
    .next (s.advance.resultThenFlag x (s.getV x + s.getV y) (carryFlag (s.getV x) (s.getV y))) := rfl

/-! ### Writes to registers -/

/-- Another register file and another pc leave every other piece of state. -/
theorem KeepsAllBut_with_v_pc (s : State) (v : Vector Byte 16) (pc : Word) :
    KeepsAllBut [.v, .pc] s { s with v := v, pc := pc } := by
  intro p hp
  cases p with
  | v => exact absurd (by decide) hp
  | pc => exact absurd (by decide) hp
  | mem => exact fun _ => rfl
  | _ => rfl

/-- `V[x] <- b` keeps every other register. -/
theorem KeepsRegsBut_setV (s : State) (x : Nibble) (b : Byte) : KeepsRegsBut [x] s (s.setV x b) :=
  fun _ hr => s.getV_setV_ne b (List.ne_of_not_mem_cons hr)

/-- 8XY4's order leaves the flag in VF, also when the result went there before it (R78). -/
theorem State.getV_resultThenFlag_flagReg (s : State) (x : Nibble) (result flag : Byte) :
    (s.resultThenFlag x result flag).getV flagReg = flag := by
  rw [State.getV_resultThenFlag, if_pos rfl]

/-- 8XY4's order leaves the result in V[x] unless that is VF (R78). -/
theorem State.getV_resultThenFlag_dest (s : State) {x : Nibble} (result flag : Byte) (hx : x ≠ flagReg) :
    (s.resultThenFlag x result flag).getV x = result := by
  rw [State.getV_resultThenFlag, if_neg hx, if_pos rfl]

/-- 8XY4's order writes V[x] and VF only (R78, R85). -/
theorem KeepsRegsBut_resultThenFlag (s : State) (x : Nibble) (result flag : Byte) :
    KeepsRegsBut [x, flagReg] s (s.resultThenFlag x result flag) := by
  intro r hr
  have hx : r ≠ x := List.ne_of_not_mem_cons hr
  have hf : r ≠ flagReg := List.ne_of_not_mem_cons (List.not_mem_of_not_mem_cons hr)
  rw [State.getV_resultThenFlag, if_neg hf, if_neg hx]

/-- What every instruction that writes `b` to V[x] and nothing else does: no flag, VF included among the registers kept
(R79 to R84). -/
theorem exec_setV_spec {i : Instr} {s : State} {x : Nibble} {b : Byte} (h : exec i s = .next (s.advance.setV x b)) :
    ∃ t, exec i s = .next t ∧ t.getV x = b ∧ t.pc = s.pc + 2 ∧
      KeepsRegsBut [x] s t ∧ KeepsAllBut [.v, .pc] s t :=
  ⟨_, h, State.getV_setV_self .., rfl, KeepsRegsBut_setV s.advance x b, KeepsAllBut_with_v_pc s _ _⟩

/-- A register write of a byte that combines V[X] and V[Y] bit by bit by `op` (R82 to R84). -/
theorem exec_bitwise_spec {i : Instr} {s : State} {x y : Nibble} {b : Byte} (op : Bool → Bool → Bool)
    (h : exec i s = .next (s.advance.setV x b))
    (hb : ∀ n, b.getLsbD n = op ((s.getV x).getLsbD n) ((s.getV y).getLsbD n)) :
    ∃ t, exec i s = .next t ∧
      (∀ n, (t.getV x).getLsbD n = op ((s.getV x).getLsbD n) ((s.getV y).getLsbD n)) ∧ t.pc = s.pc + 2 ∧
      KeepsRegsBut [x] s t ∧ KeepsAllBut [.v, .pc] s t := by
  obtain ⟨t, ht, hx, frame⟩ := exec_setV_spec h
  exact ⟨t, ht, hx ▸ hb, frame⟩

/-- The carry as a number (R77). -/
theorem carryFlag_toNat (a b : Byte) : (carryFlag a b).toNat = if a.toNat + b.toNat > 255 then 1 else 0 := by
  unfold carryFlag flagByte
  by_cases h : a.toNat + b.toNat > 255 <;> simp [h]

/-! ### The obligations -/

/-- Settles O27: both are one register write, of KK or of the byte sum. -/
theorem immediateLoadAndAdd : Obligations.ImmediateLoadAndAdd := by
  intro s x kk
  refine ⟨encodes_ldK x kk, encodes_addK x kk, exec_setV_spec (exec_ldK x kk s), ?add⟩
  case add =>
    obtain ⟨t, ht, hx, frame⟩ := exec_setV_spec (exec_addK x kk s)
    exact ⟨t, ht, hx ▸ BitVec.toNat_add .., frame⟩

/-- Settles O28: each is one register write, of a byte whose bits are those of the operands combined. -/
theorem copyAndLogicWriteOnlyTheirDestination : Obligations.CopyAndLogicWriteOnlyTheirDestination := by
  intro s x y
  exact ⟨encodes_ldV x y, encodes_orV x y, encodes_andV x y, encodes_xorV x y,
    exec_setV_spec (exec_ldV x y s),
    exec_bitwise_spec or (exec_orV x y s) fun _ => BitVec.getLsbD_or,
    exec_bitwise_spec and (exec_andV x y s) fun _ => BitVec.getLsbD_and,
    exec_bitwise_spec bne (exec_xorV x y s) fun _ => BitVec.getLsbD_xor⟩

/-- Settles O29: the flag is written last, so VF is the carry even when X = 0xF. -/
theorem addWritesSumAndCarry : Obligations.AddWritesSumAndCarry := by
  intro s x y sum
  refine ⟨encodes_addV x y, _, exec_addV x y s, rfl, ?result, ?flag, ?regs, KeepsAllBut_with_v_pc s _ _⟩
  case result =>
    intro hx
    exact (congrArg BitVec.toNat (State.getV_resultThenFlag_dest _ _ _ hx)).trans (BitVec.toNat_add ..)
  case flag =>
    exact (congrArg BitVec.toNat (State.getV_resultThenFlag_flagReg ..)).trans (carryFlag_toNat ..)
  case regs => exact KeepsRegsBut_resultThenFlag s.advance x _ _

end Sys2Proof.Machine
end

section
/-! The address register (43_index_memory.md R92 to R94): how the words of LD I, ADD I and LD F decode, what they answer,
and the frame they share, which is that of a write to I and the pre-advance. -/

namespace Sys2Proof.Machine

/-! ### Encodings -/

theorem encodes_ldI (nnn : Addr12) : Encodes (0xA#4 ++ nnn) (.ldI nnn) := fun lax => by simp [decodeWord]

/-- Family 0xF is decoded on KK alone, whatever LAX_DECODE is (R57, R59). -/
theorem encodes_of_decodeF {x : Nibble} {kk : Byte} {i : Instr} (h : decodeF (0xF#4 ++ x ++ kk) = .instr i) :
    Encodes (0xF#4 ++ x ++ kk) i := fun lax => by
  simpa [decodeWord] using h

theorem encodes_addI (x : Nibble) : Encodes (0xF#4 ++ x ++ 0x1E#8) (.addI x) :=
  encodes_of_decodeF (by simp [decodeF])

theorem encodes_ldF (x : Nibble) : Encodes (0xF#4 ++ x ++ 0x29#8) (.ldF x) :=
  encodes_of_decodeF (by simp [decodeF])

/-! ### What the instructions answer -/

theorem exec_ldI (nnn : Addr12) (s : State) : exec (.ldI nnn) s = .next { s.advance with i := addrWord nnn } := rfl

theorem exec_addI (x : Nibble) (s : State) :
    exec (.addI x) s = .next { s.advance with i := s.i + (s.getV x).setWidth 16 } := rfl

theorem exec_ldF (x : Nibble) (s : State) :
    exec (.ldF x) s = .next { s.advance with i := (s.getV x).setWidth 16 * 5 } := rfl

/-! ### Writes to I -/

/-- Another I and another pc leave every other piece of state, VF and the fault record included. -/
theorem KeepsAllBut_with_i_pc (s : State) (i pc : Word) : KeepsAllBut [.i, .pc] s { s with i := i, pc := pc } := by
  intro p hp
  cases p with
  | i => exact absurd (by decide) hp
  | pc => exact absurd (by decide) hp
  | mem => exact fun _ => rfl
  | v => exact fun _ => rfl
  | _ => rfl

/-- What every instruction that writes `a` to I and nothing else does (R92 to R94). -/
theorem exec_writeI_spec {i : Instr} {s : State} {a : Word} {n : Nat} (h : exec i s = .next { s.advance with i := a })
    (ha : a.toNat = n) :
    ∃ t, exec i s = .next t ∧ t.i.toNat = n ∧ t.pc = s.pc + 2 ∧ KeepsAllBut [.i, .pc] s t :=
  ⟨_, h, ha, rfl, KeepsAllBut_with_i_pc s a _⟩

/-- A byte taken to 16 bits keeps its number. -/
theorem byte_setWidth_toNat (b : Byte) : (b.setWidth 16).toNat = b.toNat := BitVec.toNat_setWidth_of_le (by decide)

/-- I plus a byte wraps at 16 bits (R93). -/
theorem add_byte_toNat (a : Word) (b : Byte) : (a + b.setWidth 16).toNat = (a.toNat + b.toNat) % 65536 := by
  rw [BitVec.toNat_add, byte_setWidth_toNat]

/-- Five times a byte fits in 16 bits, so the glyph address never wraps (R94). -/
theorem glyphAddr_toNat (b : Byte) : (b.setWidth 16 * 5).toNat = b.toNat * 5 := by
  have fits : b.toNat * 5 < 2 ^ 16 := by have := b.isLt; omega
  rw [BitVec.toNat_mul, byte_setWidth_toNat]
  exact Nat.mod_eq_of_lt fits

/-! ### The obligation -/

/-- Settles O36: each of the three is one write to I, of NNN, of the sum mod 65536, or of five times V[X]. -/
theorem addressRegisterInstructions : Obligations.AddressRegisterInstructions := by
  intro s x nnn
  exact ⟨encodes_ldI nnn, encodes_addI x, encodes_ldF x,
    exec_writeI_spec (exec_ldI nnn s) (addrWord_toNat nnn),
    exec_writeI_spec (exec_addI x s) (add_byte_toNat s.i (s.getV x)),
    exec_writeI_spec (exec_ldF x s) (glyphAddr_toNat (s.getV x))⟩

end Sys2Proof.Machine
end

section
/-! The timers (45_timers_input.md R107, R110, R111): how the words of LD DT, LD ST and LD Vx, DT decode, what they answer,
the frame of a write to one timer and the pre-advance, and when the sound is on (60_exceptions.md R126). -/

namespace Sys2Proof.Machine

/-! ### Encodings -/

theorem encodes_ldDtV (x : Nibble) : Encodes (0xF#4 ++ x ++ 0x15#8) (.ldDtV x) :=
  encodes_of_decodeF (by simp [decodeF])

theorem encodes_ldStV (x : Nibble) : Encodes (0xF#4 ++ x ++ 0x18#8) (.ldStV x) :=
  encodes_of_decodeF (by simp [decodeF])

theorem encodes_ldVDt (x : Nibble) : Encodes (0xF#4 ++ x ++ 0x07#8) (.ldVDt x) :=
  encodes_of_decodeF (by simp [decodeF])

/-! ### What the instructions answer -/

theorem exec_ldDtV (x : Nibble) (s : State) : exec (.ldDtV x) s = .next { s.advance with dt := s.getV x } := rfl

theorem exec_ldStV (x : Nibble) (s : State) : exec (.ldStV x) s = .next { s.advance with st := s.getV x } := rfl

theorem exec_ldVDt (x : Nibble) (s : State) : exec (.ldVDt x) s = .next (s.advance.setV x s.dt) := rfl

/-! ### Writes to a timer -/

/-- Another delay timer and another pc leave every other piece of state. -/
theorem KeepsAllBut_with_dt_pc (s : State) (dt : Byte) (pc : Word) :
    KeepsAllBut [.dt, .pc] s { s with dt := dt, pc := pc } := by
  intro p hp
  cases p with
  | dt => exact absurd (by decide) hp
  | pc => exact absurd (by decide) hp
  | mem => exact fun _ => rfl
  | v => exact fun _ => rfl
  | _ => rfl

/-- Another sound timer and another pc leave every other piece of state. -/
theorem KeepsAllBut_with_st_pc (s : State) (st : Byte) (pc : Word) :
    KeepsAllBut [.st, .pc] s { s with st := st, pc := pc } := by
  intro p hp
  cases p with
  | st => exact absurd (by decide) hp
  | pc => exact absurd (by decide) hp
  | mem => exact fun _ => rfl
  | v => exact fun _ => rfl
  | _ => rfl

/-! ### The sound -/

/-- The sound is on exactly while ST is not 0 (R126). -/
theorem State.soundActive_iff (s : State) : s.soundActive = true ↔ s.st ≠ 0 := by
  rw [State.soundActive, decide_eq_true_iff, gt_iff_lt, Nat.pos_iff_ne_zero]
  exact not_congr (BitVec.toNat_inj (y := 0))

/-- With ST = 1 the next tick of a running core ends the sound (R124, R126). -/
theorem State.soundActive_tickTimers_of_st_one {s : State} (hf : s.fault = none) (hst : s.st = 1) :
    s.tickTimers.soundActive = false := by
  have silent : s.tickTimers.st = 0 := by rw [State.tickTimers_eq s hf, hst]; rfl
  rw [← Bool.not_eq_true, State.soundActive_iff, not_not]
  exact silent

/-! ### The obligation -/

/-- Settles O46: two writes to a timer and one register write; the sound clauses follow from ST = V[X]. -/
theorem timerLoadsAndReads : Obligations.TimerLoadsAndReads := by
  intro s x
  refine ⟨encodes_ldDtV x, encodes_ldStV x, encodes_ldVDt x, ?loadDt, ?loadSt, exec_setV_spec (exec_ldVDt x s)⟩
  case loadDt => exact ⟨_, exec_ldDtV x s, rfl, rfl, KeepsAllBut_with_dt_pc s _ _⟩
  case loadSt =>
    exact ⟨_, exec_ldStV x s, rfl, rfl, KeepsAllBut_with_st_pc s _ _, State.soundActive_iff _,
      fun hf hst => State.soundActive_tickTimers_of_st_one hf hst⟩

end Sys2Proof.Machine
end

section
/-! The display the host reads (60_exceptions.md R134): the bits of `read_display` are the rows of the buffer one after
another, so their number and the bit at an index are those of a flattened vector of 32 rows of 64 pixels. -/

namespace Sys2Proof.Machine

/-- The bits are the buffer flattened row by row. -/
theorem State.readDisplay_eq_flatten (s : State) : s.readDisplay = s.disp.flatten.toList := by
  rw [State.readDisplay]
  obtain ⟨rows, hrows⟩ := s.disp
  simp only [List.flatMap_def, Vector.toList_mk, Vector.flatten_mk, Array.toList_flatten, Array.toList_map,
    List.map_map]
  rfl

@[simp] theorem State.readDisplay_length (s : State) : s.readDisplay.length = 2048 := by
  rw [State.readDisplay_eq_flatten, Vector.length_toList]

/-- Bit y × 64 + x lies in row y at column x: its index has quotient y and remainder x by the row's width. -/
theorem State.readDisplay_getElem? (s : State) (px : Fin 64) (py : Fin 32) :
    s.readDisplay[py.val * 64 + px.val]? = some (s.disp.pixel px py) := by
  have inRange : py.val * 64 + px.val < 32 * 64 := by omega
  have row : (py.val * 64 + px.val) / 64 = py.val := by omega
  have column : (py.val * 64 + px.val) % 64 = px.val := by omega
  rw [State.readDisplay_eq_flatten, Vector.getElem?_toList, Vector.getElem?_eq_getElem inRange, Vector.getElem_flatten]
  simp only [row, column, Display.pixel, Fin.getElem_fin]

/-! ### The obligation -/

/-- Settles O51: the transaction answers the core itself, and its response is the flattened buffer. -/
theorem readDisplayIsRowMajor : Obligations.ReadDisplayIsRowMajor := by
  intro s
  exact ⟨rfl, s.readDisplay, rfl, s.readDisplay_length, s.readDisplay_getElem?⟩

end Sys2Proof.Machine
end

section
/-! The decoder as a whole (30_encoding.md R57 to R61): which word each remaining instruction is encoded by, that
`encode` and strict decode are inverse to each other, and which words are NOPs under either value of LAX_DECODE. -/

namespace Sys2Proof.Machine

/-! ### Encodings -/

theorem encodes_cls : Encodes 0x00E0 .cls := by unfold Encodes; decide

theorem encodes_ret : Encodes 0x00EE .ret := by unfold Encodes; decide

theorem encodes_call (nnn : Addr12) : Encodes (0x2#4 ++ nnn) (.call nnn) := fun lax => by simp [decodeWord]

theorem encodes_jpV0 (nnn : Addr12) : Encodes (0xB#4 ++ nnn) (.jpV0 nnn) := fun lax => by simp [decodeWord]

theorem encodes_sub (x y : Nibble) : Encodes (0x8#4 ++ x ++ y ++ 0x5#4) (.sub x y) :=
  encodes_of_decode8 (by simp [decode8])

theorem encodes_shr (x y : Nibble) : Encodes (0x8#4 ++ x ++ y ++ 0x6#4) (.shr x y) :=
  encodes_of_decode8 (by simp [decode8])

theorem encodes_subn (x y : Nibble) : Encodes (0x8#4 ++ x ++ y ++ 0x7#4) (.subn x y) :=
  encodes_of_decode8 (by simp [decode8])

theorem encodes_shl (x y : Nibble) : Encodes (0x8#4 ++ x ++ y ++ 0xE#4) (.shl x y) :=
  encodes_of_decode8 (by simp [decode8])

theorem encodes_rnd (x : Nibble) (kk : Byte) : Encodes (0xC#4 ++ x ++ kk) (.rnd x kk) := fun lax => by
  simp [decodeWord]

theorem encodes_drw (x y n : Nibble) : Encodes (0xD#4 ++ x ++ y ++ n) (.drw x y n) := fun lax => by
  simp [decodeWord]

theorem encodes_skp (x : Nibble) : Encodes (0xE#4 ++ x ++ 0x9E#8) (.skp x) := fun lax => by
  simp [decodeWord, decodeE]

theorem encodes_sknp (x : Nibble) : Encodes (0xE#4 ++ x ++ 0xA1#8) (.sknp x) := fun lax => by
  simp [decodeWord, decodeE]

theorem encodes_ldVK (x : Nibble) : Encodes (0xF#4 ++ x ++ 0x0A#8) (.ldVK x) :=
  encodes_of_decodeF (by simp [decodeF])

theorem encodes_ldB (x : Nibble) : Encodes (0xF#4 ++ x ++ 0x33#8) (.ldB x) :=
  encodes_of_decodeF (by simp [decodeF])

theorem encodes_stRegs (x : Nibble) : Encodes (0xF#4 ++ x ++ 0x55#8) (.stRegs x) :=
  encodes_of_decodeF (by simp [decodeF])

theorem encodes_ldRegs (x : Nibble) : Encodes (0xF#4 ++ x ++ 0x65#8) (.ldRegs x) :=
  encodes_of_decodeF (by simp [decodeF])

/-- What `encode` writes encodes the instruction, under both values of LAX_DECODE. -/
theorem encodes_encode (i : Instr) : Encodes (encode i) i := by
  cases i with
  | cls => exact encodes_cls
  | ret => exact encodes_ret
  | jp nnn => exact encodes_jp nnn
  | call nnn => exact encodes_call nnn
  | seK x kk => exact encodes_seK x kk
  | sneK x kk => exact encodes_sneK x kk
  | seV x y => exact encodes_seV x y
  | ldK x kk => exact encodes_ldK x kk
  | addK x kk => exact encodes_addK x kk
  | ldV x y => exact encodes_ldV x y
  | orV x y => exact encodes_orV x y
  | andV x y => exact encodes_andV x y
  | xorV x y => exact encodes_xorV x y
  | addV x y => exact encodes_addV x y
  | sub x y => exact encodes_sub x y
  | shr x y => exact encodes_shr x y
  | subn x y => exact encodes_subn x y
  | shl x y => exact encodes_shl x y
  | sneV x y => exact encodes_sneV x y
  | ldI nnn => exact encodes_ldI nnn
  | jpV0 nnn => exact encodes_jpV0 nnn
  | rnd x kk => exact encodes_rnd x kk
  | drw x y n => exact encodes_drw x y n
  | skp x => exact encodes_skp x
  | sknp x => exact encodes_sknp x
  | ldVDt x => exact encodes_ldVDt x
  | ldVK x => exact encodes_ldVK x
  | ldDtV x => exact encodes_ldDtV x
  | ldStV x => exact encodes_ldStV x
  | addI x => exact encodes_addI x
  | ldF x => exact encodes_ldF x
  | ldB x => exact encodes_ldB x
  | stRegs x => exact encodes_stRegs x
  | ldRegs x => exact encodes_ldRegs x

/-- The first two bytes decode as their word, and the rest is left over (R53). -/
theorem decodeBytes_bytesOfWord_append (lax : Bool) (w : Word) (rest : List Byte) :
    decodeBytes lax (bytesOfWord w ++ rest) = .ok (decodeWord lax w, rest) := by
  rw [bytesOfWord, List.cons_append, List.singleton_append, decodeBytes, wordOfBytes_bytesOfWord]

/-! ### Families -/

/-- The fixed digits and the operand fields of a word make the word again, in each format of R55. -/
theorem formatA_fields (w : Word) : fieldOp w ++ fieldNNN w = w := by
  apply BitVec.eq_of_toNat_eq
  rw [formatA_toNat, fieldOp_toNat, fieldNNN_toNat]; omega

theorem formatXK_fields (w : Word) : fieldOp w ++ fieldX w ++ fieldKK w = w := by
  apply BitVec.eq_of_toNat_eq
  rw [formatXK_toNat, fieldOp_toNat, fieldX_toNat, fieldKK_toNat]; omega

theorem formatXYN_fields (w : Word) : fieldOp w ++ fieldX w ++ fieldY w ++ fieldN w = w := by
  apply BitVec.eq_of_toNat_eq
  rw [formatXYN_toNat, fieldOp_toNat, fieldX_toNat, fieldY_toNat, fieldN_toNat]; omega

/-- A field with the number of a digit is that digit. -/
theorem nibble_eq_of_toNat {a : Nibble} {n : Nat} (h : a.toNat = n) : a = BitVec.ofNat 4 n := by
  rw [← h, BitVec.ofNat_toNat, BitVec.setWidth_eq]

section
variable {w : Word} {op : Nat}

/-- A word of a known family, in each format. -/
theorem formatA_of_op (hop : (fieldOp w).toNat = op) : BitVec.ofNat 4 op ++ fieldNNN w = w := by
  rw [← nibble_eq_of_toNat hop, formatA_fields]

theorem formatXK_of_op (hop : (fieldOp w).toNat = op) : BitVec.ofNat 4 op ++ fieldX w ++ fieldKK w = w := by
  rw [← nibble_eq_of_toNat hop, formatXK_fields]

theorem formatXYN_of_op (hop : (fieldOp w).toNat = op) :
    BitVec.ofNat 4 op ++ fieldX w ++ fieldY w ++ fieldN w = w := by
  rw [← nibble_eq_of_toNat hop, formatXYN_fields]

end

section
variable {w : Word} {i : Instr}

/-- Family 0x0 in strict decode: only the two whole words. -/
theorem encode_of_decode0 (h : decode0 false w = .instr i) : encode i = w := by
  unfold decode0 at h
  split at h
  · cases h; simp_all [encode]
  · split at h <;> cases h
    simp_all [encode]

/-- Families 0x5 and 0x9 in strict decode: N is 0. -/
theorem cases_of_decodeN0 {mk : Nibble → Nibble → Instr} (h : decodeN0 false w mk = .instr i) :
    i = mk (fieldX w) (fieldY w) ∧ fieldN w = 0 := by
  unfold decodeN0 at h
  split at h <;> cases h
  next hn => exact ⟨rfl, by simpa using hn⟩

/-- Family 0x8: every branch fixes N. -/
theorem encode_of_decode8 (hop : (fieldOp w).toNat = 0x8) (h : decode8 w = .instr i) : encode i = w := by
  have hw := formatXYN_of_op hop
  unfold decode8 at h
  split at h <;> cases h <;> (next hn => rw [nibble_eq_of_toNat hn] at hw; exact hw)

/-- Family 0xE: every branch fixes KK. -/
theorem encode_of_decodeE (hop : (fieldOp w).toNat = 0xE) (h : decodeE w = .instr i) : encode i = w := by
  have hw := formatXK_of_op hop
  unfold decodeE at h
  split_ifs at h <;> cases h <;> (next hkk => rw [hkk] at hw; exact hw)

/-- Family 0xF: every branch fixes KK. -/
theorem encode_of_decodeF (hop : (fieldOp w).toNat = 0xF) (h : decodeF w = .instr i) : encode i = w := by
  have hw := formatXK_of_op hop
  unfold decodeF at h
  split_ifs at h <;> cases h <;> (next hkk => rw [hkk] at hw; exact hw)

end

/-- Strict decode reads an instruction only from the word `encode` writes for it: each family's operands are its fields,
and each fixed digit is checked. -/
theorem encode_of_decodeWord {w : Word} {i : Instr} (h : decodeWord false w = .instr i) : encode i = w := by
  unfold decodeWord at h
  split at h
  next => exact encode_of_decode0 h
  next hop => cases h; exact formatA_of_op hop
  next hop => cases h; exact formatA_of_op hop
  next hop => cases h; exact formatXK_of_op hop
  next hop => cases h; exact formatXK_of_op hop
  next hop =>
    obtain ⟨rfl, hn⟩ := cases_of_decodeN0 h
    have hw := formatXYN_of_op hop
    rwa [hn] at hw
  next hop => cases h; exact formatXK_of_op hop
  next hop => cases h; exact formatXK_of_op hop
  next hop => exact encode_of_decode8 hop h
  next hop =>
    obtain ⟨rfl, hn⟩ := cases_of_decodeN0 h
    have hw := formatXYN_of_op hop
    rwa [hn] at hw
  next hop => cases h; exact formatA_of_op hop
  next hop => cases h; exact formatA_of_op hop
  next hop => cases h; exact formatXK_of_op hop
  next hop => cases h; exact formatXYN_of_op hop
  next hop => exact encode_of_decodeE hop h
  next =>
    have hop : (fieldOp w).toNat = 0xF := by have := (fieldOp w).isLt; grind
    exact encode_of_decodeF hop h

/-! ### NOP words -/

theorem decode0_eq_nop_iff (w : Word) : decode0 false w = .nop w ↔ w ≠ 0x00E0 ∧ w ≠ 0x00EE := by
  simp only [decode0, Bool.false_eq_true, false_and, or_false]
  split_ifs <;> simp_all

theorem decodeN0_eq_nop_iff (w : Word) (mk : Nibble → Nibble → Instr) :
    decodeN0 false w mk = .nop w ↔ w.toNat % 0x10 ≠ 0 := by
  have hn : fieldN w = 0 ↔ w.toNat % 0x10 = 0 := by rw [← BitVec.toNat_inj, fieldN_toNat]; rfl
  simp only [decodeN0, Bool.false_eq_true, or_false, hn]
  split_ifs <;> simp_all

theorem decode8_eq_nop_iff (w : Word) :
    decode8 w = .nop w ↔ w.toNat % 0x10 ∈ [0x8, 0x9, 0xA, 0xB, 0xC, 0xD, 0xF] := by
  have : w.toNat % 0x10 < 0x10 := Nat.mod_lt _ (by decide)
  rw [decode8, fieldN_toNat]
  generalize w.toNat % 0x10 = n at *
  interval_cases n <;> simp

theorem decodeE_eq_nop_iff (w : Word) : decodeE w = .nop w ↔ w.toNat % 0x100 ∉ [0x9E, 0xA1] := by
  simp only [decodeE, ← BitVec.toNat_inj, fieldKK_toNat]
  split_ifs <;> simp_all

theorem decodeF_eq_nop_iff (w : Word) :
    decodeF w = .nop w ↔ w.toNat % 0x100 ∉ [0x07, 0x0A, 0x15, 0x18, 0x1E, 0x29, 0x33, 0x55, 0x65] := by
  simp only [decodeF, ← BitVec.toNat_inj, fieldKK_toNat]
  split_ifs <;> simp_all

section
variable {w : Word} (lax : Bool)

/-! The families that can hold a NOP, by the word's number (R57). -/

theorem decodeWord_family0 (h : w.toNat / 0x1000 = 0x0) : decodeWord lax w = decode0 lax w := by
  simp [decodeWord, fieldOp_toNat, h]

theorem decodeWord_family5 (h : w.toNat / 0x1000 = 0x5) : decodeWord lax w = decodeN0 lax w .seV := by
  simp [decodeWord, fieldOp_toNat, h]

theorem decodeWord_family8 (h : w.toNat / 0x1000 = 0x8) : decodeWord lax w = decode8 w := by
  simp [decodeWord, fieldOp_toNat, h]

theorem decodeWord_family9 (h : w.toNat / 0x1000 = 0x9) : decodeWord lax w = decodeN0 lax w .sneV := by
  simp [decodeWord, fieldOp_toNat, h]

theorem decodeWord_familyE (h : w.toNat / 0x1000 = 0xE) : decodeWord lax w = decodeE w := by
  simp [decodeWord, fieldOp_toNat, h]

theorem decodeWord_familyF (h : w.toNat / 0x1000 = 0xF) : decodeWord lax w = decodeF w := by
  simp [decodeWord, fieldOp_toNat, h]

/-- The other families are instructions on every word, whatever LAX_DECODE is. -/
theorem decodeWord_otherFamily (h : w.toNat / 0x1000 ∉ [0x0, 0x5, 0x8, 0x9, 0xE, 0xF]) :
    ∃ i, ∀ lax, decodeWord lax w = .instr i := by
  have : w.toNat / 0x1000 < 0x10 := by omega
  simp only [decodeWord, fieldOp_toNat]
  generalize w.toNat / 0x1000 = op at *
  interval_cases op <;> simp at h ⊢

end

/-! ### The obligations -/

/-- Settles O1: `encode i` encodes `i` under both values, and its two bytes are read first. -/
theorem decodeOfEncodeIsTheInstruction : Obligations.DecodeOfEncodeIsTheInstruction := by
  intro lax i rest _
  have decoded : decodeWord lax (encode i) = .instr i := encodes_encode i lax
  exact ⟨decoded, by rw [decodeBytes_bytesOfWord_append, decoded]⟩

/-- Settles O2: every branch of the decoder fixes the digits that are no operand. -/
theorem strictDecodeReadsOnlyEncodings : Obligations.StrictDecodeReadsOnlyEncodings :=
  fun _ _ => encode_of_decodeWord

/-- Settles O3: family by family. -/
theorem nopWordsAreTheWordsOutsideTheMap : Obligations.NopWordsAreTheWordsOutsideTheMap := by
  intro w op n kk
  by_cases h : op ∈ [0x0, 0x5, 0x8, 0x9, 0xE, 0xF]
  · simp only [List.mem_cons, List.not_mem_nil, or_false] at h
    rcases h with h | h | h | h | h | h
    · rw [decodeWord_family0 _ h, decode0_eq_nop_iff]; simp [h]
    · rw [decodeWord_family5 _ h, decodeN0_eq_nop_iff]; simp [h, n]
    · rw [decodeWord_family8 _ h, decode8_eq_nop_iff]; simp [h, n]
    · rw [decodeWord_family9 _ h, decodeN0_eq_nop_iff]; simp [h, n]
    · rw [decodeWord_familyE _ h, decodeE_eq_nop_iff]; simp [h, kk]
    · rw [decodeWord_familyF _ h, decodeF_eq_nop_iff]; simp [h, kk]
  · obtain ⟨i, hi⟩ := decodeWord_otherFamily h
    simp only [List.mem_cons, List.not_mem_nil, or_false, not_or] at h
    simp [hi, h]

/-- The fields X and Y of a word as O4 writes them. -/
theorem fieldX_eq_ofNat (w : Word) : fieldX w = BitVec.ofNat 4 (w.toNat / 0x100) := by
  apply BitVec.eq_of_toNat_eq; rw [fieldX_toNat, BitVec.toNat_ofNat]

theorem fieldY_eq_ofNat (w : Word) : fieldY w = BitVec.ofNat 4 (w.toNat / 0x10) := by
  apply BitVec.eq_of_toNat_eq; rw [fieldY_toNat, BitVec.toNat_ofNat]

/-- Families 0x5 and 0x9 in lax decode. -/
theorem decodeN0_lax (w : Word) (mk : Nibble → Nibble → Instr) :
    decodeN0 true w mk = .instr (mk (fieldX w) (fieldY w)) := by simp [decodeN0]

/-- Family 0x0 in lax decode selects on KK alone: the two whole words have the same KK. -/
theorem decode0_lax (w : Word) : decode0 true w =
    if w.toNat % 0x100 = 0xE0 then .instr .cls else if w.toNat % 0x100 = 0xEE then .instr .ret else .nop w := by
  have hcls : w = 0x00E0 ∨ fieldKK w = 0xE0 ↔ fieldKK w = 0xE0 := or_iff_right_of_imp (by rintro rfl; rfl)
  have hret : w = 0x00EE ∨ fieldKK w = 0xEE ↔ fieldKK w = 0xEE := or_iff_right_of_imp (by rintro rfl; rfl)
  simp only [decode0, true_and, hcls, hret]
  simp only [← BitVec.toNat_inj, fieldKK_toNat]; rfl

/-- Settles O4: a family that is neither 0x0, 0x5 nor 0x9 never looks at LAX_DECODE. -/
theorem laxDecodeWidensOnlyThreeFamilies : Obligations.LaxDecodeWidensOnlyThreeFamilies := by
  intro w op x y kk
  refine ⟨?other, ?cls, ?ret, ?nop, ?seV, ?sneV⟩
  case other =>
    intro h0 h5 h9
    by_cases h : op ∈ [0x0, 0x5, 0x8, 0x9, 0xE, 0xF]
    · simp only [List.mem_cons, List.not_mem_nil, or_false, h0, h5, h9, false_or] at h
      rcases h with h | h | h
      · rw [decodeWord_family8 _ h, decodeWord_family8 _ h]
      · rw [decodeWord_familyE _ h, decodeWord_familyE _ h]
      · rw [decodeWord_familyF _ h, decodeWord_familyF _ h]
    · obtain ⟨i, hi⟩ := decodeWord_otherFamily h
      rw [hi, hi]
  case cls => intro h hk; rw [decodeWord_family0 _ h, decode0_lax, if_pos hk]
  case ret =>
    intro h hk
    rw [decodeWord_family0 _ h, decode0_lax, if_neg (by omega), if_pos hk]
  case nop => intro h hcls hret; rw [decodeWord_family0 _ h, decode0_lax, if_neg hcls, if_neg hret]
  case seV => intro h; rw [decodeWord_family5 _ h, decodeN0_lax, fieldX_eq_ofNat, fieldY_eq_ofNat]
  case sneV => intro h; rw [decodeWord_family9 _ h, decodeN0_lax, fieldX_eq_ofNat, fieldY_eq_ofNat]

/-- Settles O5: each word is decoded by computation. -/
theorem sampleWordsDecodeAsTheSpecWritesThem : Obligations.SampleWordsDecodeAsTheSpecWritesThem := by
  unfold Obligations.SampleWordsDecodeAsTheSpecWritesThem; decide

end Sys2Proof.Machine
end

section
/-! What the instructions that can fault answer, by their cause (41_control_flow.md R68, R70; 43_index_memory.md R95 to
R97; 44_display.md R102; 45_timers_input.md R104 to R106): the converses of the inversions in Laws/Exec. -/

namespace Sys2Proof.Machine

variable (s : State)

/-! ### The stack -/

theorem exec_ret_ok (k : Nat) (hk : k < 16) (h : s.sp.val = k + 1) :
    exec .ret s = .next { s with sp := ⟨k, by omega⟩, pc := s.stack[k] } := by
  rw [exec, execRet, s.pop_ok k hk h]; rfl

theorem exec_ret_underflow (h : s.sp.val = 0) :
    exec .ret s = .next { s with fault := some (.stackFault .underflow 0) } := by
  rw [exec, execRet, s.pop_empty h]; rfl

theorem exec_call_ok (nnn : Addr12) (h : s.sp.val < 16) : exec (.call nnn) s = .next { s with
    stack := s.stack.set s.sp.val (s.pc + 2) h, sp := ⟨s.sp.val + 1, by omega⟩, pc := addrWord nnn } := by
  rw [exec, execCall, s.push_ok _ h]; rfl

theorem exec_call_overflow (nnn : Addr12) (h : s.sp.val = 16) :
    exec (.call nnn) s = .next { s with fault := some (.stackFault .overflow 16) } := by
  rw [exec, execCall, s.push_full _ h]; rfl

/-! ### The keys -/

theorem exec_skp_ok (x : Nibble) (k : Fin 16) (h : (s.getV x).toNat = k.val) :
    exec (.skp x) s = .next (s.advance.skipIf s.key[k]) := by
  rw [exec, execSkp, keyIndex_of_lt _ k h]

theorem exec_skp_index (x : Nibble) (h : 0xF < (s.getV x).toNat) :
    exec (.skp x) s = .next { s with fault := some (.keyIndexFault (s.getV x)) } := by
  rw [exec, execSkp, keyIndex_of_ge _ h]; rfl

theorem exec_sknp_ok (x : Nibble) (k : Fin 16) (h : (s.getV x).toNat = k.val) :
    exec (.sknp x) s = .next (s.advance.skipIf (!s.key[k])) := by
  rw [exec, execSknp, keyIndex_of_lt _ k h]

theorem exec_sknp_index (x : Nibble) (h : 0xF < (s.getV x).toNat) :
    exec (.sknp x) s = .next { s with fault := some (.keyIndexFault (s.getV x)) } := by
  rw [exec, execSknp, keyIndex_of_ge _ h]; rfl

/-! ### Memory -/

/-- A check of `n` bytes that all lie in 0x050–0xFFF lets the store run. -/
theorem guarded_write_ok (body : State) {n : Nat} (hn : 0 < n) (h0 : 0x050 ≤ s.dataAddr 0) (h : s.dataAddr n ≤ 0x1000) :
    s.guarded (firstFailing checkWrite (s.dataAddr 0) n) body = .next body := by
  rw [(firstFailing_checkWrite_none _ n hn).mpr ⟨h0, h⟩, State.guarded_none]

/-- A store that starts in the font region is refused at its first address (D7, D27). -/
theorem guarded_write_font (body : State) {n : Nat} (hn : 0 < n) (h : s.dataAddr 0 ≤ 0x04F) :
    s.guarded (firstFailing checkWrite (s.dataAddr 0) n) body =
      .next { s with fault := some (.memoryFault s.i.toNat .write .fontProtected) } := by
  rw [firstFailing_checkWrite_font _ n hn h, State.guarded_some]; rfl

/-- A store that ends beyond memory is refused at the first address there (D8, D27). -/
theorem guarded_write_range (body : State) {n : Nat} (h0 : 0 < n) (hn : n ≤ 16) (h : 0x1000 < s.dataAddr n) :
    s.guarded (firstFailing checkWrite (s.dataAddr 0) n) body =
      .next { s with fault := some (.memoryFault (dataFaultAddr s) .write .outOfRange) } := by
  have above : 0x050 ≤ s.dataAddr 0 := by unfold State.dataAddr at h ⊢; omega
  rw [firstFailing_checkWrite_range _ n h0 above h, State.guarded_some]; rfl

/-- A check of `n` bytes that all lie in memory lets the read run, as does a check of none. -/
theorem guarded_read_ok (body : State) {n : Nat} (h : s.dataAddr n ≤ 0x1000 ∨ n = 0) :
    s.guarded (firstFailing checkRead (s.dataAddr 0) n) body = .next body := by
  rcases Nat.eq_zero_or_pos n with rfl | hn
  · rfl
  · rw [(firstFailing_checkRead_none (s.dataAddr 0) n hn).mpr (h.resolve_right (by omega)), State.guarded_none]

/-- A read that ends beyond memory is refused at the first address there (D8, D27). -/
theorem guarded_read_range (body : State) {n : Nat} (h0 : 0 < n) (h : 0x1000 < s.dataAddr n) :
    s.guarded (firstFailing checkRead (s.dataAddr 0) n) body =
      .next { s with fault := some (.memoryFault (dataFaultAddr s) .read .outOfRange) } := by
  rw [firstFailing_checkRead_some (s.dataAddr 0) n h0 h, State.guarded_some]; rfl

section
variable (x : Nibble)

theorem exec_ldB_ok (h0 : 0x050 ≤ s.dataAddr 0) (h : s.dataAddr 2 ≤ 0xFFF) :
    exec (.ldB x) s = .next (s.advance.storeBytes (s.dataAddr 0) (bcdBytes (s.getV x))) :=
  guarded_write_ok s _ (by decide) h0 (Nat.succ_le_succ h)

theorem exec_ldB_font (h : s.dataAddr 0 ≤ 0x04F) :
    exec (.ldB x) s = .next { s with fault := some (.memoryFault s.i.toNat .write .fontProtected) } :=
  guarded_write_font s _ (by decide) h

theorem exec_ldB_range (h : 0xFFF < s.dataAddr 2) :
    exec (.ldB x) s = .next { s with fault := some (.memoryFault (dataFaultAddr s) .write .outOfRange) } :=
  guarded_write_range s _ (by decide) (by decide) (Nat.succ_lt_succ h)

theorem exec_stRegs_ok (h0 : 0x050 ≤ s.dataAddr 0) (h : s.dataAddr x.toNat ≤ 0xFFF) :
    exec (.stRegs x) s = .next (s.advance.storeBytes (s.dataAddr 0) (s.regBytes x)) :=
  guarded_write_ok s _ (Nat.succ_pos _) h0 (Nat.succ_le_succ h)

theorem exec_stRegs_font (h : s.dataAddr 0 ≤ 0x04F) :
    exec (.stRegs x) s = .next { s with fault := some (.memoryFault s.i.toNat .write .fontProtected) } :=
  guarded_write_font s _ (Nat.succ_pos _) h

theorem exec_stRegs_range (h : 0xFFF < s.dataAddr x.toNat) :
    exec (.stRegs x) s = .next { s with fault := some (.memoryFault (dataFaultAddr s) .write .outOfRange) } :=
  guarded_write_range s _ (Nat.succ_pos _) x.isLt (Nat.succ_lt_succ h)

theorem exec_ldRegs_ok (h : s.dataAddr x.toNat ≤ 0xFFF) :
    exec (.ldRegs x) s = .next (s.advance.loadRegs (s.dataAddr 0) (x.toNat + 1)) :=
  guarded_read_ok s _ (.inl (Nat.succ_le_succ h))

theorem exec_ldRegs_range (h : 0xFFF < s.dataAddr x.toNat) :
    exec (.ldRegs x) s = .next { s with fault := some (.memoryFault (dataFaultAddr s) .read .outOfRange) } :=
  guarded_read_range s _ (Nat.succ_pos _) (Nat.succ_lt_succ h)

end

/-! ### The display -/

theorem exec_drw_ok (x y n : Nibble) (h : s.dataAddr n.toNat ≤ 0x1000 ∨ n = 0) :
    exec (.drw x y n) s = .next { s.advance.setV flagReg (flagByte (drawResult x y n s).2) with
      disp := (drawResult x y n s).1, dirty := true } :=
  guarded_read_ok s _ (h.imp_right (congrArg BitVec.toNat))

theorem exec_drw_range (x y n : Nibble) (hn : n ≠ 0) (h : 0x1000 < s.dataAddr n.toNat) :
    exec (.drw x y n) s = .next { s with fault := some (.memoryFault (dataFaultAddr s) .read .outOfRange) } :=
  guarded_read_range s _ (Nat.pos_of_ne_zero fun h0 => hn (BitVec.eq_of_toNat_eq h0)) h

end Sys2Proof.Machine
end

section
/-! What any instruction can do, said once for all 34 (60_exceptions.md R119, R120; 10_state.md R16 to R32): it either
raises one of its own faults and records it, or completes, changing only the pieces of state the spec names for it. The
rules over all instructions follow. -/

namespace Sys2Proof.Machine

/-! ### Frames, piece by piece -/

/-- A frame is one equation for each piece of state it does not list. -/
theorem keepsAllBut_iff (l : List Part) (s t : State) : KeepsAllBut l s t ↔
    (.mem ∈ l ∨ ∀ a, t.byteAt a = s.byteAt a) ∧ (.v ∈ l ∨ ∀ r, t.getV r = s.getV r) ∧
    (.i ∈ l ∨ t.i = s.i) ∧ (.pc ∈ l ∨ t.pc = s.pc) ∧ (.stack ∈ l ∨ t.stack = s.stack) ∧
    (.sp ∈ l ∨ t.sp = s.sp) ∧ (.dt ∈ l ∨ t.dt = s.dt) ∧ (.st ∈ l ∨ t.st = s.st) ∧
    (.disp ∈ l ∨ t.disp = s.disp) ∧ (.key ∈ l ∨ t.key = s.key) ∧ (.waiting ∈ l ∨ t.waiting = s.waiting) ∧
    (.waitReg ∈ l ∨ t.waitReg = s.waitReg) ∧ (.dirty ∈ l ∨ t.dirty = s.dirty) ∧
    (.fault ∈ l ∨ t.fault = s.fault) ∧ (.rng ∈ l ∨ t.rng = s.rng) ∧ (.params ∈ l ∨ t.params = s.params) := by
  simp only [or_iff_not_imp_left]
  constructor
  · intro h
    exact ⟨h .mem, h .v, h .i, h .pc, h .stack, h .sp, h .dt, h .st, h .disp, h .key, h .waiting, h .waitReg, h .dirty,
      h .fault, h .rng, h .params⟩
  · rintro ⟨mem, v, i, pc, stack, sp, dt, st, disp, key, waiting, waitReg, dirty, fault, rng, params⟩ p
    cases p <;> assumption

section
variable (s : State) (pc : Word)

theorem KeepsAllBut_with_disp_dirty_pc (disp : Display) (dirty : Bool) :
    KeepsAllBut [.disp, .dirty, .pc] s { s with disp := disp, dirty := dirty, pc := pc } :=
  (keepsAllBut_iff ..).mpr (by simp [State.byteAt, State.getV])

theorem KeepsAllBut_with_v_disp_dirty_pc (v : Vector Byte 16) (disp : Display) (dirty : Bool) :
    KeepsAllBut [.v, .disp, .dirty, .pc] s { s with v := v, disp := disp, dirty := dirty, pc := pc } :=
  (keepsAllBut_iff ..).mpr (by simp [State.byteAt])

theorem KeepsAllBut_with_pc_sp (sp : Fin 17) : KeepsAllBut [.pc, .sp] s { s with pc := pc, sp := sp } :=
  (keepsAllBut_iff ..).mpr (by simp [State.byteAt, State.getV])

theorem KeepsAllBut_with_pc_sp_stack (sp : Fin 17) (stack : Vector Word 16) :
    KeepsAllBut [.pc, .sp, .stack] s { s with pc := pc, sp := sp, stack := stack } :=
  (keepsAllBut_iff ..).mpr (by simp [State.byteAt, State.getV])

theorem KeepsAllBut_with_v_pc_rng (v : Vector Byte 16) (rng : Nat) :
    KeepsAllBut [.v, .pc, .rng] s { s with v := v, pc := pc, rng := rng } :=
  (keepsAllBut_iff ..).mpr (by simp [State.byteAt])

theorem KeepsAllBut_with_waiting_waitReg_pc (waiting : Bool) (waitReg : Nibble) :
    KeepsAllBut [.waiting, .waitReg, .pc] s { s with waiting := waiting, waitReg := waitReg, pc := pc } :=
  (keepsAllBut_iff ..).mpr (by simp [State.byteAt, State.getV])

theorem KeepsAllBut_with_mem_pc (mem : Memory) : KeepsAllBut [.mem, .pc] s { s with mem := mem, pc := pc } :=
  (keepsAllBut_iff ..).mpr (by simp [State.getV])

end

/-- A store after the pre-advance changes memory and pc only. -/
theorem KeepsAllBut_advance_storeBytes (s : State) (base : Nat) (bs : List Byte) :
    KeepsAllBut [.mem, .pc] s (s.advance.storeBytes base bs) := by
  rw [State.storeBytes_eq]; exact KeepsAllBut_with_mem_pc s _ _

/-! ### The pieces of state an instruction is named for -/

/-- R21 to R32: the pieces of state an instruction may change when it completes. -/
def writtenParts : Instr → List Part
  | .cls => [.disp, .dirty, .pc]
  | .ret => [.pc, .sp]
  | .call _ => [.pc, .sp, .stack]
  | .jp _ | .jpV0 _ | .seK _ _ | .sneK _ _ | .seV _ _ | .sneV _ _ | .skp _ | .sknp _ => [.pc]
  | .ldK _ _ | .addK _ _ | .ldV _ _ | .orV _ _ | .andV _ _ | .xorV _ _ | .addV _ _ | .sub _ _ | .shr _ _ | .subn _ _
  | .shl _ _ | .ldVDt _ | .ldRegs _ => [.v, .pc]
  | .rnd _ _ => [.v, .pc, .rng]
  | .drw _ _ _ => [.v, .disp, .dirty, .pc]
  | .ldVK _ => [.waiting, .waitReg, .pc]
  | .ldDtV _ => [.dt, .pc]
  | .ldStV _ => [.st, .pc]
  | .ldI _ | .addI _ | .ldF _ => [.i, .pc]
  | .ldB _ | .stRegs _ => [.mem, .pc]

/-- R67 to R75, R105, R106: the instructions that may set pc to another address than the next one. -/
def transfersControl : Instr → Bool
  | .ret | .jp _ | .call _ | .jpV0 _ | .seK _ _ | .sneK _ _ | .seV _ _ | .sneV _ _ | .skp _ | .sknp _ => true
  | _ => false

/-- The faults each instruction raises, with the cause wherever the record's legality rests on it (R113 to R115). -/
inductive Raises (s : State) : Instr → Fault → Prop where
  | ret : s.sp.val = 0 → Raises s .ret (.stackFault .underflow 0)
  | call (nnn : Addr12) : s.sp.val = 16 → Raises s (.call nnn) (.stackFault .overflow 16)
  | skp (x : Nibble) : 0xF < (s.getV x).toNat → Raises s (.skp x) (.keyIndexFault (s.getV x))
  | sknp (x : Nibble) : 0xF < (s.getV x).toNat → Raises s (.sknp x) (.keyIndexFault (s.getV x))
  | drw (x y n : Nibble) : Raises s (.drw x y n) (.memoryFault (dataFaultAddr s) .read .outOfRange)
  | ldRegs (x : Nibble) : Raises s (.ldRegs x) (.memoryFault (dataFaultAddr s) .read .outOfRange)
  | ldBFont (x : Nibble) : s.i.toNat ≤ 0x04F → Raises s (.ldB x) (.memoryFault s.i.toNat .write .fontProtected)
  | ldB (x : Nibble) : Raises s (.ldB x) (.memoryFault (dataFaultAddr s) .write .outOfRange)
  | stRegsFont (x : Nibble) : s.i.toNat ≤ 0x04F → Raises s (.stRegs x) (.memoryFault s.i.toNat .write .fontProtected)
  | stRegs (x : Nibble) : Raises s (.stRegs x) (.memoryFault (dataFaultAddr s) .write .outOfRange)

/-- What an instruction that completes does: its frame, with memory kept cell by cell unless it stores, its registers,
where pc goes, and that it never clears Draw-Dirty. -/
structure Completes (i : Instr) (s t : State) : Prop where
  frame : KeepsAllBut (writtenParts i) s t
  mem : .mem ∉ writtenParts i → t.mem = s.mem
  regs : ∀ r, writesReg i r = false → t.getV r = s.getV r
  next : transfersControl i = false → t.pc = s.pc + 2
  dirty : s.dirty = true → t.dirty = true

/-- The flag instructions write V[x] and VF only, in either order (R78). -/
theorem KeepsRegsBut_flagAndResult (s : State) (x : Nibble) (flag : Byte) (result : State → Byte) :
    KeepsRegsBut [x, flagReg] s (s.flagAndResult x flag result) := by
  intro r hr
  have hx : r ≠ x := List.ne_of_not_mem_cons hr
  have hf : r ≠ flagReg := List.ne_of_not_mem_cons (List.not_mem_of_not_mem_cons hr)
  unfold State.flagAndResult
  split <;> simp [hx, hf]

section
variable {i : Instr} {s : State}

/-- A move of pc completes an instruction that writes pc only. -/
theorem Completes.jumpTo (a : Word) (hp : writtenParts i = [.pc]) (hc : transfersControl i = true) :
    Completes i s (s.jumpTo a) where
  frame := hp ▸ KeepsAllBut_jumpTo s a
  mem _ := rfl
  regs _ _ := rfl
  next h := absurd (h.symm.trans hc) (by decide)
  dirty := id

/-- So does a skip. -/
theorem Completes.skip (c : Bool) (hp : writtenParts i = [.pc]) (hc : transfersControl i = true) :
    Completes i s (s.advance.skipIf c) := by
  rw [s.advance_skipIf_eq]; exact .jumpTo _ hp hc

/-- An instruction that writes no register, by its frame. -/
theorem Completes.ofFrame {t : State} (frame : KeepsAllBut (writtenParts i) s t) (hv : .v ∉ writtenParts i)
    (hm : .mem ∉ writtenParts i → t.mem = s.mem) (hn : transfersControl i = false → t.pc = s.pc + 2)
    (hd : s.dirty = true → t.dirty = true) : Completes i s t where
  frame := frame
  mem := hm
  regs r _ := frame .v hv r
  next := hn
  dirty := hd

/-- A write to the instruction's own registers, and the pre-advance. -/
theorem Completes.withV {t : State} (ht : t = { s.advance with v := t.v }) (hp : writtenParts i = [.v, .pc])
    (hr : ∀ r, writesReg i r = false → t.getV r = s.getV r) : Completes i s t where
  frame := by rw [hp, ht]; exact KeepsAllBut_with_v_pc s _ _
  mem _ := by rw [ht]; rfl
  regs := hr
  next _ := by rw [ht]; rfl
  dirty h := by rw [ht]; exact h

/-- A write to one register, the one the instruction is named for. -/
theorem Completes.setV (x : Nibble) (b : Byte) (hp : writtenParts i = [.v, .pc])
    (hx : writesReg i x = true) : Completes i s (s.advance.setV x b) :=
  .withV rfl hp fun r hr => s.advance.getV_setV_ne b (by rintro rfl; simp [hx] at hr)

/-- A write to VF and the destination, in any order. -/
theorem Completes.flags {t : State} {x : Nibble} (ht : t = { s.advance with v := t.v })
    (hk : KeepsRegsBut [x, flagReg] s.advance t) (hp : writtenParts i = [.v, .pc])
    (hx : writesReg i x = true) (hf : writesReg i flagReg = true) : Completes i s t :=
  .withV ht hp fun r hr => hk r (by
    rw [List.mem_pair]
    rintro (rfl | rfl)
    · simp [hx] at hr
    · simp [hf] at hr)

end

/-- The one case analysis over all 34 instructions: a fault that the instruction raises, or a completion. -/
theorem exec_cases {i : Instr} {s t : State} (h : exec i s = .next t) :
    (∃ f, Raises s i f ∧ t = { s with fault := some f }) ∨ Completes i s t := by
  cases i with
  | ret =>
    rcases execRet_cases h with ⟨h0, rfl⟩ | ⟨k, hk, h0, rfl⟩
    · exact .inl ⟨_, .ret h0, rfl⟩
    · exact .inr (.ofFrame (KeepsAllBut_with_pc_sp s _ _) (by decide) (fun _ => rfl) nofun id)
  | call nnn =>
    rcases execCall_cases h with ⟨h0, rfl⟩ | ⟨hk, rfl⟩
    · exact .inl ⟨_, .call nnn h0, rfl⟩
    · exact .inr (.ofFrame (KeepsAllBut_with_pc_sp_stack s _ _ _) (by simp [writtenParts]) (fun _ => rfl) nofun id)
  | skp x =>
    rcases execSkp_cases h with ⟨h0, rfl⟩ | ⟨k, -, rfl⟩
    · exact .inl ⟨_, .skp x h0, rfl⟩
    · exact .inr (.skip _ rfl rfl)
  | sknp x =>
    rcases execSknp_cases h with ⟨h0, rfl⟩ | ⟨k, -, rfl⟩
    · exact .inl ⟨_, .sknp x h0, rfl⟩
    · exact .inr (.skip _ rfl rfl)
  | drw x y n =>
    rcases execDrw_cases h with ⟨-, -, rfl⟩ | ⟨-, rfl⟩
    · exact .inl ⟨_, .drw x y n, rfl⟩
    · exact .inr
        { frame := KeepsAllBut_with_v_disp_dirty_pc s _ _ _ _
          mem := fun _ => rfl
          regs := fun r hr => s.advance.getV_setV_ne _ (by simpa [writesReg, flagReg] using hr)
          next := fun _ => rfl
          dirty := fun _ => rfl }
  | ldRegs x =>
    rcases execLdRegs_cases h with ⟨-, rfl⟩ | ⟨-, rfl⟩
    · exact .inl ⟨_, .ldRegs x, rfl⟩
    · refine .inr (.withV (State.loadRegs_eq ..) rfl fun r hr => ?_)
      simp only [writesReg, decide_eq_false_iff_not] at hr
      rw [State.getV_loadRegs _ _ _ (by omega), if_neg (by omega), State.getV_advance]
  | ldB x =>
    rcases execLdB_cases h with ⟨h0, rfl⟩ | ⟨-, -, rfl⟩ | ⟨-, -, rfl⟩
    · exact .inl ⟨_, .ldBFont x h0, rfl⟩
    · exact .inl ⟨_, .ldB x, rfl⟩
    · exact .inr (.ofFrame (KeepsAllBut_advance_storeBytes s _ _) (by simp [writtenParts])
        (by simp [writtenParts]) (by simp) (by simp))
  | stRegs x =>
    rcases execStRegs_cases h with ⟨h0, rfl⟩ | ⟨-, -, rfl⟩ | ⟨-, -, rfl⟩
    · exact .inl ⟨_, .stRegsFont x h0, rfl⟩
    · exact .inl ⟨_, .stRegs x, rfl⟩
    · exact .inr (.ofFrame (KeepsAllBut_advance_storeBytes s _ _) (by simp [writtenParts])
        (by simp [writtenParts]) (by simp) (by simp))
  | jp | jpV0 => cases h; exact .inr (.jumpTo _ rfl rfl)
  | seK | sneK | seV | sneV => cases h; exact .inr (.skip _ rfl rfl)
  | ldK | addK | ldV | orV | andV | xorV | ldVDt => cases h; exact .inr (.setV _ _ rfl (by simp [writesReg]))
  | addV =>
    cases h
    exact .inr (.flags (State.resultThenFlag_eq ..) (KeepsRegsBut_resultThenFlag _ _ _ _) rfl (by simp [writesReg])
      (by simp [writesReg, flagReg]))
  | sub | shr | subn | shl =>
    cases h
    exact .inr (.flags (State.flagAndResult_eq ..) (KeepsRegsBut_flagAndResult _ _ _ _) rfl (by simp [writesReg])
      (by simp [writesReg, flagReg]))
  | rnd x kk =>
    cases h
    exact .inr
      { frame := KeepsAllBut_with_v_pc_rng s _ _ _
        mem := fun _ => rfl
        regs := fun r hr => s.advance.getV_setV_ne _ (by simpa [writesReg, flagReg] using hr)
        next := fun _ => rfl
        dirty := id }
  | cls =>
    cases h
    exact .inr (.ofFrame (KeepsAllBut_with_disp_dirty_pc s _ _ _) (by decide) (fun _ => rfl) (fun _ => rfl)
      fun _ => rfl)
  | ldVK x =>
    cases h
    exact .inr (.ofFrame (KeepsAllBut_with_waiting_waitReg_pc s _ _ _) (by simp [writtenParts]) (fun _ => rfl)
      (fun _ => rfl) id)
  | ldDtV x =>
    cases h
    exact .inr (.ofFrame (KeepsAllBut_with_dt_pc s _ _) (by simp [writtenParts]) (fun _ => rfl)
      (fun _ => rfl) id)
  | ldStV x =>
    cases h
    exact .inr (.ofFrame (KeepsAllBut_with_st_pc s _ _) (by simp [writtenParts]) (fun _ => rfl)
      (fun _ => rfl) id)
  | ldI | addI | ldF =>
    cases h
    exact .inr (.ofFrame (KeepsAllBut_with_i_pc s _ _) (by simp [writtenParts]) (fun _ => rfl)
      (fun _ => rfl) id)

/-- A fault entry changes the fault record only (R120). -/
theorem KeepsAllBut_with_fault (s : State) (f : Option Fault) : KeepsAllBut [.fault] s { s with fault := f } :=
  (keepsAllBut_iff ..).mpr (by simp)

/-- No completion touches the fault record. -/
theorem fault_notMem_writtenParts (i : Instr) : .fault ∉ writtenParts i := by cases i <;> simp [writtenParts]

/-- A piece of state that changed, the fault record apart, is one the instruction is named for. -/
theorem exec_writes {i : Instr} {s t : State} (h : exec i s = .next t) (p : Part) (hp : p ≠ .fault)
    (changed : ¬samePart p s t) : p ∈ writtenParts i := by
  rcases exec_cases h with ⟨f, -, rfl⟩ | hc
  · exact absurd (KeepsAllBut_with_fault s _ p (by simpa using hp)) changed
  · exact by_contra fun hn => changed (hc.frame p hn)

/-- The instructions named for each special piece of state (R21 to R32, R39, R43). -/
def WriterOf (i : Instr) : Part → Prop
  | .mem => (∃ x, i = .ldB x) ∨ ∃ x, i = .stRegs x
  | .i => (∃ nnn, i = .ldI nnn) ∨ (∃ x, i = .addI x) ∨ ∃ x, i = .ldF x
  | .stack => ∃ nnn, i = .call nnn
  | .sp => (∃ nnn, i = .call nnn) ∨ i = .ret
  | .dt => ∃ x, i = .ldDtV x
  | .st => ∃ x, i = .ldStV x
  | .disp | .dirty => i = .cls ∨ ∃ x y n, i = .drw x y n
  | .waiting | .waitReg => ∃ x, i = .ldVK x
  | .rng => ∃ x kk, i = .rnd x kk
  | .key | .params => False
  | .v | .pc | .fault => True

theorem writerOf_of_mem {i : Instr} {p : Part} (h : p ∈ writtenParts i) : WriterOf i p := by
  cases i <;> simp only [writtenParts, List.mem_cons, List.not_mem_nil, or_false] at h <;>
    rcases h with rfl | rfl | rfl | rfl <;> simp [WriterOf]

/-- A piece of state that changed, by its writers. -/
theorem exec_writerOf {i : Instr} {s t : State} (h : exec i s = .next t) (p : Part) (hp : p ≠ .fault)
    (changed : ¬samePart p s t) : WriterOf i p := writerOf_of_mem (exec_writes h p hp changed)

/-- The parameters are no instruction's to write (R10). -/
theorem exec_params {i : Instr} {s t : State} (h : exec i s = .next t) : t.params = s.params :=
  by_contra fun hne => exec_writerOf h .params nofun hne

/-- The keys are the host's to write (R27). -/
theorem exec_key {i : Instr} {s t : State} (h : exec i s = .next t) : t.key = s.key :=
  by_contra fun hne => exec_writerOf h .key nofun hne

/-- The jumps, calls, returns and skips, by name. -/
theorem transfersControl_cases {i : Instr} (h : transfersControl i = true) :
    (∃ nnn, i = .jp nnn ∨ i = .call nnn ∨ i = .jpV0 nnn) ∨ i = .ret ∨
      (∃ x kk, i = .seK x kk ∨ i = .sneK x kk) ∨ (∃ x y, i = .seV x y ∨ i = .sneV x y) ∨
      ∃ x, i = .skp x ∨ i = .sknp x := by
  cases i <;> simp [transfersControl] at h ⊢

/-- A byte that a store changed lies in its range. -/
theorem State.range_of_byteAt_storeBytes_ne {s : State} {base a : Nat} {bs : List Byte}
    (h : (s.storeBytes base bs).byteAt a ≠ s.byteAt a) : base ≤ a ∧ a < base + bs.length := by
  by_contra hr
  exact h (by rw [State.byteAt_storeBytes, dif_neg hr])

/-! ### The obligations -/

/-- Settles O10: a completion leaves the fault record, so the recorded fault is one the instruction raises. -/
theorem instructionFaultsArePreciseAndOfOneKind : Obligations.InstructionFaultsArePreciseAndOfOneKind := by
  intro i s t hs h f hf
  rcases exec_cases h with ⟨g, hr, rfl⟩ | hc
  · cases hf
    refine ⟨rfl, ?_⟩
    cases hr with
    | ldBFont | stRegsFont => exact .inl rfl
    | ldB | stRegs => exact .inr rfl
    | _ => rfl
  · have : t.fault = s.fault := hc.frame .fault (fault_notMem_writtenParts i)
    simp [this, hs] at hf

/-- Settles O17: the writers of memory are FX33 and FX55, and each stores at I .. I + n inside 0x050–0xFFF. -/
theorem onlyTwoInstructionsStoreToMemory : Obligations.OnlyTwoInstructionsStoreToMemory := by
  intro i s t h a ha
  rcases exec_writerOf h .mem nofun (fun same => ha (same a)) with ⟨x, rfl⟩ | ⟨x, rfl⟩
  · rcases execLdB_cases h with ⟨-, rfl⟩ | ⟨-, -, rfl⟩ | ⟨h0, h1, rfl⟩
    · exact absurd rfl ha
    · exact absurd rfl ha
    · obtain ⟨lo, hi⟩ := State.range_of_byteAt_storeBytes_ne (s := s.advance) ha
      rw [bcdBytes_length] at hi
      exact ⟨by omega, by omega, lo, .inl ⟨x, rfl, by unfold State.dataAddr; omega⟩⟩
  · rcases execStRegs_cases h with ⟨-, rfl⟩ | ⟨-, -, rfl⟩ | ⟨h0, h1, rfl⟩
    · exact absurd rfl ha
    · exact absurd rfl ha
    · obtain ⟨lo, hi⟩ := State.range_of_byteAt_storeBytes_ne (s := s.advance) ha
      rw [State.regBytes_length] at hi
      exact ⟨by omega, by omega, lo, .inr ⟨x, rfl, by unfold State.dataAddr; omega⟩⟩

/-- Settles O18: each changed piece has its writers; Draw-Dirty and pc by the cases of a completion. -/
theorem specialStateHasOnlyItsWriters : Obligations.SpecialStateHasOnlyItsWriters := by
  intro i s t h
  have writer := exec_writerOf h
  refine ⟨writer .i nofun, writer .stack nofun, writer .sp nofun, writer .dt nofun, writer .st nofun,
    writer .disp nofun, writer .dirty nofun, ?dirty, writer .waiting nofun, writer .waitReg nofun, writer .rng nofun,
    exec_key h, exec_params h, ?pc⟩
  case dirty =>
    rcases exec_cases h with ⟨f, -, rfl⟩ | hc
    · exact id
    · exact hc.dirty
  case pc =>
    intro hs ht hpc
    rcases exec_cases h with ⟨f, -, rfl⟩ | hc
    · cases ht
    · exact transfersControl_cases (by_contra fun hn => hpc (hc.next (by simpa using hn)))

/-- Settles O19: a fault changes no register, and a completion only those of `writesReg`. -/
theorem onlyDestinationAndFlagRegistersChange : Obligations.OnlyDestinationAndFlagRegistersChange := by
  intro i s t h r hne
  rcases exec_cases h with ⟨f, -, rfl⟩ | hc
  · exact absurd rfl hne
  · exact by_contra fun hn => hne (hc.regs r (by simpa using hn))

end Sys2Proof.Machine
end

section
/-! What an instruction does not read: the keys (but EX9E and EXA1), TIMER_COUPLING, and FLAG_ORDER (but where VF is an
operand of 8XY5, 8XY6, 8XY7 or 8XYE). One lemma, `exec_withInputs`, says so for all 34 instructions at once; the
statements that compare two runs follow from it. -/

namespace Sys2Proof.Machine

/-- The same core under other keys, another FLAG_ORDER and another TIMER_COUPLING. -/
def State.withInputs (s : State) (keys : Vector Bool 16) (order : FlagOrder) (coupling : TimerCoupling) : State :=
  { s with key := keys, params := { s.params with flagOrder := order, timerCoupling := coupling } }

section
variable (s : State) (keys : Vector Bool 16) (order : FlagOrder) (coupling : TimerCoupling)

/-! ### The operations the instructions are made of -/

theorem State.withInputs_setV (x : Nibble) (b : Byte) :
    (s.withInputs keys order coupling).setV x b = (s.setV x b).withInputs keys order coupling := rfl

theorem State.withInputs_skipIf (c : Bool) :
    (s.withInputs keys order coupling).skipIf c = (s.skipIf c).withInputs keys order coupling := by
  cases c <;> rfl

theorem State.withInputs_storeBytes (base : Nat) (bs : List Byte) :
    (s.withInputs keys order coupling).storeBytes base bs =
      (s.storeBytes base bs).withInputs keys order coupling := by
  induction bs generalizing s base with
  | nil => rfl
  | cons b bs ih => exact ih (s.writeByte base b) (base + 1)

theorem State.withInputs_loadRegs (base n : Nat) :
    (s.withInputs keys order coupling).loadRegs base n = (s.loadRegs base n).withInputs keys order coupling := by
  induction n with
  | zero => rfl
  | succ n ih => rw [State.loadRegs, ih]; rfl

/-- A guarded instruction takes the same fault or runs the same body. -/
theorem State.withInputs_guarded {check : Option Fault} {body body' t : State}
    (hb : body' = body.withInputs keys order coupling) (h : s.guarded check body = .next t) :
    (s.withInputs keys order coupling).guarded check body' = .next (t.withInputs keys order coupling) := by
  rcases State.guarded_cases h with ⟨f, rfl, rfl⟩ | ⟨rfl, rfl⟩
  · rfl
  · rw [State.guarded_none, hb]

/-- Writes to two registers commute. -/
theorem State.setV_comm {x y : Nibble} (hxy : x ≠ y) (a b : Byte) : (s.setV x a).setV y b = (s.setV y b).setV x a := by
  have hne : x.toNat ≠ y.toNat := fun e => hxy (BitVec.eq_of_toNat_eq e)
  simp only [State.setV, Vector.set_comm _ _ hne]

/-- Without VF as an operand the flag and the result do not meet, and both orders write the same (R78). -/
theorem State.flagAndResult_apart {x : Nibble} {flag : Byte} {result : State → Byte} (hx : x ≠ flagReg)
    (hr : result (s.setV flagReg flag) = result s) :
    s.flagAndResult x flag result = (s.setV x (result s)).setV flagReg flag := by
  unfold State.flagAndResult
  split
  · rw [hr, State.setV_comm s hx]
  · rfl

theorem State.withInputs_flagAndResult {x : Nibble} {flag : Byte} {result : State → Byte}
    (hr : ∀ u : State, result (u.withInputs keys order coupling) = result u)
    (ho : order = s.params.flagOrder ∨ x ≠ flagReg ∧ result (s.setV flagReg flag) = result s) :
    (s.withInputs keys order coupling).flagAndResult x flag result =
      (s.flagAndResult x flag result).withInputs keys order coupling := by
  rcases ho with rfl | ⟨hx, hres⟩
  · have order : (s.withInputs keys s.params.flagOrder coupling).params.flagOrder = s.params.flagOrder := rfl
    unfold State.flagAndResult
    rw [order]
    simp only [State.withInputs_setV, hr]
    cases s.params.flagOrder <;> rfl
  · rw [State.flagAndResult_apart s hx hres,
      State.flagAndResult_apart _ hx (by rw [State.withInputs_setV, hr, hr, hres]), hr]
    rfl

end

/-! ### The instructions -/

/-- R78: VF is an operand that 8XY5, 8XY6, 8XY7 or 8XYE reads. -/
def readsVf : Instr → Bool
  | .sub x y | .subn x y => x == flagReg || y == flagReg
  | .shr x _ | .shl x _ => x == flagReg
  | _ => false

/-- R105, R106: the instructions that read a key. -/
def readsKeys : Instr → Bool
  | .skp _ | .sknp _ => true
  | _ => false

/-- An instruction does the same under other keys it does not read, another FLAG_ORDER when VF is not its operand, and
any TIMER_COUPLING. -/
theorem exec_withInputs {i : Instr} {s t : State} {keys : Vector Bool 16} {order : FlagOrder} (coupling : TimerCoupling)
    (hk : keys = s.key ∨ readsKeys i = false) (ho : order = s.params.flagOrder ∨ readsVf i = false)
    (h : exec i s = .next t) :
    exec i (s.withInputs keys order coupling) = .next (t.withInputs keys order coupling) := by
  cases i with
  | ret =>
    rcases execRet_cases h with ⟨h0, rfl⟩ | ⟨k, hk, h0, rfl⟩
    · exact exec_ret_underflow (s.withInputs keys order coupling) h0
    · exact exec_ret_ok (s.withInputs keys order coupling) k hk h0
  | call nnn =>
    rcases execCall_cases h with ⟨h0, rfl⟩ | ⟨h0, rfl⟩
    · exact exec_call_overflow (s.withInputs keys order coupling) nnn h0
    · exact exec_call_ok (s.withInputs keys order coupling) nnn h0
  | skp x =>
    obtain rfl : keys = s.key := hk.resolve_right nofun
    rcases execSkp_cases h with ⟨h0, rfl⟩ | ⟨k, h0, rfl⟩
    · exact exec_skp_index (s.withInputs s.key order coupling) x h0
    · rw [← State.withInputs_skipIf]; exact exec_skp_ok (s.withInputs s.key order coupling) x k h0
  | sknp x =>
    obtain rfl : keys = s.key := hk.resolve_right nofun
    rcases execSknp_cases h with ⟨h0, rfl⟩ | ⟨k, h0, rfl⟩
    · exact exec_sknp_index (s.withInputs s.key order coupling) x h0
    · rw [← State.withInputs_skipIf]; exact exec_sknp_ok (s.withInputs s.key order coupling) x k h0
  | ldB x => exact s.withInputs_guarded _ _ _ (s.advance.withInputs_storeBytes ..) h
  | stRegs x => exact s.withInputs_guarded _ _ _ (s.advance.withInputs_storeBytes ..) h
  | ldRegs x => exact s.withInputs_guarded _ _ _ (s.advance.withInputs_loadRegs ..) h
  | drw x y n => exact s.withInputs_guarded _ _ _ rfl h
  | sub x y | subn x y =>
    cases h
    refine congrArg _ (s.advance.withInputs_flagAndResult _ _ _ (fun _ => rfl) (ho.imp_right fun hv => ?_))
    simp only [readsVf, Bool.or_eq_false_iff, beq_eq_false_iff_ne] at hv
    exact ⟨hv.1, by simp [hv]⟩
  | shr x y | shl x y =>
    cases h
    refine congrArg _ (s.advance.withInputs_flagAndResult _ _ _ (fun _ => rfl) (ho.imp_right fun hv => ?_))
    simp only [readsVf, beq_eq_false_iff_ne] at hv
    exact ⟨hv, by simp [hv]⟩
  | seK | sneK | seV | sneV => cases h; rw [← State.withInputs_skipIf]; rfl
  | _ => cases h; rfl

/-! ### The obligations -/

/-- Settles O20: the keys are an input that only EX9E and EXA1 read. -/
theorem onlyTwoInstructionsReadTheKeys : Obligations.OnlyTwoInstructionsReadTheKeys := by
  intro i s t keys hskp hsknp h
  have hk : readsKeys i = false := by cases i <;> simp_all [readsKeys]
  have run := exec_withInputs (keys := keys) s.params.timerCoupling (.inr hk) (.inl rfl) h
  have same : t.withInputs keys s.params.flagOrder s.params.timerCoupling = { t with key := keys } := by
    rw [← exec_params h]; rfl
  rwa [same] at run

/-- Settles O35: FLAG_ORDER is an input that only 8XY5, 8XY6, 8XY7 and 8XYE with VF as an operand see. -/
theorem flagOrderShowsOnlyWhenVfIsAnOperand : Obligations.FlagOrderShowsOnlyWhenVfIsAnOperand := by
  intro i s t hsub hsh h
  have hv : readsVf i = false := by cases i <;> simp_all [readsVf, flagReg]
  have run := exec_withInputs (order := .flagLast) s.params.timerCoupling (.inl rfl) (.inr hv) h
  have same : t.withInputs s.key .flagLast s.params.timerCoupling =
      { t with params := { s.params with flagOrder := .flagLast } } := by
    rw [State.withInputs, exec_params h, ← (exec_key h : t.key = _)]
  rwa [same] at run

end Sys2Proof.Machine
end

section
/-! The step and the timers (30_encoding.md R64 to R66; 45_timers_input.md R109; 60_exceptions.md R119 to R125): what
ends a step, what it reports, what a key wait does, and what no transaction does to a faulted core. -/

namespace Sys2Proof.Machine

/-! ### Ticks and the end of a step -/

theorem State.endStep_decoupled (s : State) (h : s.params.timerCoupling = .decoupled) : s.endStep = s := by
  rw [State.endStep, h]

theorem State.endStep_perStep (s : State) (h : s.params.timerCoupling = .perStep) : s.endStep = s.tickTimers := by
  rw [State.endStep, h]

/-- Other timers leave every other piece of state. -/
theorem KeepsAllBut_with_dt_st (s : State) (dt st : Byte) : KeepsAllBut [.dt, .st] s { s with dt := dt, st := st } :=
  (keepsAllBut_iff ..).mpr (by simp [State.byteAt, State.getV])

theorem KeepsAllBut_with_v_waiting (s : State) (v : Vector Byte 16) (waiting : Bool) :
    KeepsAllBut [.v, .waiting] s { s with v := v, waiting := waiting } :=
  (keepsAllBut_iff ..).mpr (by simp [State.byteAt])

theorem KeepsAllBut_endStep (s : State) : KeepsAllBut [.dt, .st] s s.endStep := by
  rw [State.endStep_eq]; exact KeepsAllBut_with_dt_st s _ _

theorem samePart_trans {p : Part} {s t u : State} (h : samePart p s t) (h' : samePart p t u) : samePart p s u := by
  cases p with
  | mem => exact fun a => (h' a).trans (h a)
  | v => exact fun r => (h' r).trans (h r)
  | _ => exact Eq.trans h' h

/-- Two changes one after the other leave what neither lists. -/
theorem KeepsAllBut.trans {l l' k : List Part} {s t u : State} (h : KeepsAllBut l s t) (h' : KeepsAllBut l' t u)
    (hl : l ⊆ k := by decide) (hl' : l' ⊆ k := by decide) : KeepsAllBut k s u :=
  fun p hp => samePart_trans (h p fun m => hp (hl m)) (h' p fun m => hp (hl' m))

/-- What the end of a step does to the timers of a running core `u`, by the coupling, when `u` has the timers of `s`. -/
theorem endStep_timers {s u : State} (hs : s.fault = none) (hu : u.fault = none) (hp : u.params = s.params)
    (hdt : u.dt = s.dt) (hst : u.st = s.st) :
    (s.params.timerCoupling = .decoupled → u.endStep.dt = s.dt ∧ u.endStep.st = s.st) ∧
    (s.params.timerCoupling = .perStep → u.endStep.dt = s.tickTimers.dt ∧ u.endStep.st = s.tickTimers.st) := by
  constructor
  · intro hc
    rw [u.endStep_decoupled (by rw [hp, hc])]
    exact ⟨hdt, hst⟩
  · intro hc
    rw [u.endStep_perStep (by rw [hp, hc]), u.tickTimers_eq hu, s.tickTimers_eq hs]
    exact ⟨congrArg floorDec hdt, congrArg floorDec hst⟩

/-! ### What a step reports -/

theorem stepReport_faulted (s : State) {t : State} {f : Fault} (h : t.fault = some f) :
    stepReport s t = .faulted f := by rw [stepReport, h]

theorem stepReport_running (s : State) {t : State} (h : t.fault = none) :
    stepReport s t = if s.waiting && t.waiting then .stalled else .ok := by rw [stepReport, h]

/-- A step of a core that was not waiting reports Ok unless it faulted. -/
theorem stepReport_ok {s t : State} (hw : s.waiting = false) (h : t.fault = none) : stepReport s t = .ok := by
  rw [stepReport_running s h, hw]; rfl

/-! ### The steps of a running core -/

/-- A word that decodes to an instruction: its execution and the end of the step. -/
theorem step_instr {s t : State} {i : Instr} (hf : s.fault = none) (hw : s.waiting = false) (hp : s.pc.toNat ≤ 0xFFE)
    (hd : decodeWord s.params.laxDecode (wordOfBytes (s.byteAt s.pc.toNat) (s.byteAt (s.pc.toNat + 1))) = .instr i)
    (h : exec i s = .next t) : step s = .next t.endStep := by
  rw [step_cycle s hf hw hp, hd, execDecoded, h, finish]

/-- A NOP word: the pre-advance and the end of the step. -/
theorem step_nop {s : State} {w : Word} (hf : s.fault = none) (hw : s.waiting = false) (hp : s.pc.toNat ≤ 0xFFE)
    (hd : decodeWord s.params.laxDecode (wordOfBytes (s.byteAt s.pc.toNat) (s.byteAt (s.pc.toNat + 1))) = .nop w) :
    step s = .next s.advance.endStep := by
  rw [step_cycle s hf hw hp, hd, execDecoded, finish]

/-- The word at pc as a number (R41). -/
theorem wordOfBytes_toNat (hi lo : Byte) : (wordOfBytes hi lo).toNat = 0x100 * hi.toNat + lo.toNat := by
  rw [show (wordOfBytes hi lo).toNat = _ from toNat_append_eq hi lo]; omega

/-! ### The key wait -/

/-- A key is found exactly when one is pressed. -/
theorem isSome_lowestPressed (key : Vector Bool 16) : (lowestPressed key).isSome = key.toList.any id :=
  List.findIdx?_isSome

/-- The wait goes on exactly while no key is pressed. -/
theorem State.keyWaitStep_waiting {s : State} (hw : s.waiting = true) :
    s.keyWaitStep.waiting = !s.key.toList.any id := by
  rw [← isSome_lowestPressed]
  rcases h : lowestPressed s.key with _ | k
  · rw [s.keyWaitStep_none h, hw]; rfl
  · rw [s.keyWaitStep_some h]; rfl

@[simp] theorem State.endStep_waiting (s : State) : s.endStep.waiting = s.waiting := by rw [State.endStep_eq]

@[simp] theorem State.getV_endStep (s : State) (x : Nibble) : s.endStep.getV x = s.getV x := by
  rw [State.endStep_eq]; rfl

/-! ### The coupling -/

/-- The same core under TIMER_COUPLING = Decoupled. -/
def State.decouple (s : State) : State := { s with params := { s.params with timerCoupling := .decoupled } }

@[simp] theorem State.endStep_decouple (s : State) : s.decouple.endStep = s.decouple := s.decouple.endStep_decoupled rfl

theorem State.keyWaitStep_decouple (s : State) : s.decouple.keyWaitStep = s.keyWaitStep.decouple := by
  rcases h : lowestPressed s.key with _ | k
  · rw [s.keyWaitStep_none h, s.decouple.keyWaitStep_none h]
  · rw [s.keyWaitStep_some h, s.decouple.keyWaitStep_some h]; rfl

/-- No instruction sees the coupling. -/
theorem exec_decouple {i : Instr} {s t : State} (h : exec i s = .next t) : exec i s.decouple = .next t.decouple := by
  have run := exec_withInputs .decoupled (.inl rfl) (.inl rfl) h
  have same : t.withInputs s.key s.params.flagOrder .decoupled = t.decouple := by
    rw [State.withInputs, ← exec_params h, ← exec_key h]; rfl
  rwa [same] at run

/-- A step of a running core under any coupling is one state with its end of the step, and the Decoupled step is that
state itself. -/
theorem step_decouple (s : State) (hf : s.fault = none) :
    ∃ u : State, u.params = s.params ∧ step s = .next u.endStep ∧ step s.decouple = .next u.decouple := by
  rcases hw : s.waiting with _ | _
  · by_cases hp : 0xFFE < s.pc.toNat
    · refine ⟨{ s with fault := some (.memoryFault s.pc.toNat .fetch .outOfRange) }, rfl, ?_, ?_⟩
      · rw [step_fetchFault s hf hw hp, State.endStep_of_fault _ rfl]
      · exact step_fetchFault s.decouple hf hw hp
    · have hp : s.pc.toNat ≤ 0xFFE := by omega
      rcases hd : decodeWord s.params.laxDecode
          (wordOfBytes (s.byteAt s.pc.toNat) (s.byteAt (s.pc.toNat + 1))) with i | w
      · obtain ⟨u, hu⟩ := exec_answers_next i s
        refine ⟨u, exec_params hu, step_instr hf hw hp hd hu, ?_⟩
        rw [step_instr (s := s.decouple) hf hw hp hd (exec_decouple hu), State.endStep_decouple]
      · refine ⟨s.advance, rfl, step_nop hf hw hp hd, ?_⟩
        rw [step_nop (s := s.decouple) hf hw hp hd]
        exact congrArg _ s.advance.endStep_decouple
  · refine ⟨s.keyWaitStep, ?_, step_waiting s hf hw, ?_⟩
    · unfold State.keyWaitStep; split <;> rfl
    · rw [step_waiting s.decouple hf hw, State.keyWaitStep_decouple, State.endStep_decouple]

/-- Every step answers a next state. -/
theorem step_answers_next (s : State) : ∃ t, step s = .next t := by
  rcases hf : s.fault with _ | f
  · obtain ⟨u, -, hu, -⟩ := step_decouple s hf
    exact ⟨_, hu⟩
  · exact ⟨s, step_faulted s hf⟩

/-- An instruction or a NOP leaves a running core running, or records one fault and changes nothing else. -/
theorem cycle_result {s u : State} (hf : s.fault = none) (hu : (∃ i, exec i s = .next u) ∨ u = s.advance) :
    u.fault = none ∨ ∃ f, u = { s with fault := some f } := by
  rcases hu with ⟨i, hi⟩ | rfl
  · rcases exec_cases hi with ⟨f, -, rfl⟩ | hc
    · exact .inr ⟨f, rfl⟩
    · exact .inl ((hc.frame .fault (fault_notMem_writtenParts i)).trans hf)
  · exact .inl hf

/-! ### A faulted core -/

/-- No transaction changes a faulted core (R121). -/
theorem transact_faulted (x : Transaction) {s : State} {f : Fault} (h : s.fault = some f) : transact x s = .next s := by
  cases x with
  | step => exact step_faulted s h
  | tickTimers => exact congrArg _ (s.tickTimers_faulted h)
  | setKey k p => rw [transact, State.setKey, h]; rfl
  | clearDirty => rw [transact, State.clearDirty, h]; rfl
  | _ => rfl

theorem runHost_faulted (xs : List Transaction) {s : State} {f : Fault} (h : s.fault = some f) :
    runHost xs s = .next s := by
  induction xs with
  | nil => rfl
  | cons x xs ih => rw [runHost, transact_faulted x h]; exact ih

/-! ### The obligations -/

/-- Settles O9: the cases of a step in the order of R119; a completion leaves the fault record empty. -/
theorem stepHasExactlyFiveOutcomes : Obligations.StepHasExactlyFiveOutcomes := by
  intro s
  obtain ⟨t, ht⟩ := step_answers_next s
  refine ⟨t, ht, ?_⟩
  rcases step_cases ht with ⟨f, hf, rfl⟩ | ⟨hf, hw, rfl⟩ | ⟨hf, hw, hp, rfl⟩ | ⟨hf, hw, hp, u, rfl, hu⟩
  case inl => rw [hf]; exact ⟨rfl, stepReport_faulted t hf⟩
  all_goals simp only [hf, hw, if_true, Bool.false_eq_true, if_false]
  case inr.inl =>
    have running : s.keyWaitStep.endStep.fault = none := by simpa using hf
    refine ⟨running, ?_⟩
    rw [stepReport_running s running, State.endStep_waiting, State.keyWaitStep_waiting hw, hw]
    cases s.key.toList.any id <;> rfl
  case inr.inr.inl => rw [if_pos hp]; exact ⟨trivial, rfl⟩
  case inr.inr.inr =>
    rw [if_neg (by omega)]
    rcases cycle_result hf hu with running | ⟨f, rfl⟩
    · have running : u.endStep.fault = none := by simpa using running
      exact .inl ⟨running, stepReport_ok hw running⟩
    · rw [State.endStep_of_fault _ rfl]
      exact .inr ⟨f, by rw [hw], rfl⟩

/-- Settles O11: no transaction changes a faulted core, so by induction no run does; the reads answer from the state. -/
theorem faultedCoreIsAbsorbing : Obligations.FaultedCoreIsAbsorbing := by
  intro s f h
  exact ⟨fun xs => runHost_faulted xs h, congrArg _ (stepReport_faulted s h), congrArg _ h, rfl, rfl, rfl⟩

/-- Settles O12: with no key the step is its own end; with one, the lowest index is written before it. -/
theorem waitingCoreTakesTheLowestPressedKey : Obligations.WaitingCoreTakesTheLowestPressedKey := by
  intro s hf hw
  have hstep := step_waiting s hf hw
  constructor
  · intro hkeys
    rw [s.keyWaitStep_none ((lowestPressed_eq_none _).mpr hkeys)] at hstep
    refine ⟨_, hstep, KeepsAllBut_endStep s, ?stalled, s.endStep_decoupled, (endStep_timers hf hf rfl rfl rfl).2⟩
    case stalled => simp [stepReport_running, hf, hw]
  · intro k hk hlow
    have lowest : lowestPressed s.key = some k.val :=
      (lowestPressed_eq_some _ _).mpr ⟨k.isLt, hk, fun j hj => hlow ⟨j, by omega⟩ hj⟩
    have frame : KeepsAllBut [.v, .waiting] s s.keyWaitStep := by
      rw [s.keyWaitStep_some lowest]; exact KeepsAllBut_with_v_waiting s _ _
    have regs (r : Nibble) : s.keyWaitStep.endStep.getV r = (s.setV s.waitReg (BitVec.ofNat 8 k)).getV r := by
      rw [State.getV_endStep, s.keyWaitStep_some lowest]; rfl
    have woken : s.keyWaitStep.endStep.waiting = false := by
      rw [State.endStep_waiting, s.keyWaitStep_some lowest]
    refine ⟨_, hstep, ?key, woken, ?regs, frame.trans (KeepsAllBut_endStep _), ?report,
      endStep_timers hf (by simpa using hf) (frame .params (by decide)) (frame .dt (by decide)) (frame .st (by decide))⟩
    case key => rw [regs, State.getV_setV_self, BitVec.toNat_ofNat, Nat.mod_eq_of_lt (by omega)]
    case regs => exact fun r hr => (regs r).trans (KeepsRegsBut_setV s _ _ r hr)
    case report => rw [stepReport_running s (by simpa using hf), woken, Bool.and_false]; rfl

/-- Settles O13: the two runs part only at the end of the step. -/
theorem perStepIsTheDecoupledStepAndThenATick : Obligations.PerStepIsTheDecoupledStepAndThenATick := by
  intro s t hc h
  change step s.decouple = .next t at h
  rcases hf : s.fault with _ | f
  · obtain ⟨u, hp, hs, hd⟩ := step_decouple s hf
    rw [hd] at h
    cases h
    rw [hs, u.endStep_perStep (by rw [hp, hc]), ← hp]; rfl
  · rw [step_faulted s.decouple hf] at h
    cases h
    rw [step_faulted s hf]
    exact congrArg _ (s.tickTimers_faulted hf).symm

/-- Settles O6: the instruction leaves the parameters, so the end of the step is decided by those of `s`. -/
theorem stepRunsTheDecodedInstruction : Obligations.StepRunsTheDecodedInstruction := by
  intro s t i hf hw hp hd h
  rw [step_instr hf hw hp hd h, ← exec_params h]; rfl

/-- Settles O7: the step is the pre-advance and the end of the step. -/
theorem nopWordOnlyAdvancesPc : Obligations.NopWordOnlyAdvancesPc := by
  intro s w hf hw hp hd
  refine ⟨_, step_nop hf hw hp hd, ?pc, ?frame, stepReport_ok hw (by simpa using hf),
    endStep_timers hf hf rfl rfl rfl⟩
  case pc => rw [State.endStep_eq]; rfl
  case frame => exact (KeepsAllBut_jumpTo s _).trans (KeepsAllBut_endStep s.advance)

/-- Settles O8: `fetchWord` joins the two bytes, and its fault ends the step. -/
theorem fetchIsBigEndianAndFaultsBeyondMemory : Obligations.FetchIsBigEndianAndFaultsBeyondMemory := by
  intro s
  exact ⟨fun hp => ⟨_, s.fetchWord_ok hp, wordOfBytes_toNat _ _⟩, fun hp hf hw => step_fetchFault s hf hw hp⟩

/-- Settles O48: a running core has both timers decremented, a faulted one neither. -/
theorem tickDecrementsBothTimersFlooredAtZero : Obligations.TickDecrementsBothTimersFlooredAtZero := by
  intro s
  constructor
  · intro hf
    rw [s.tickTimers_eq hf]
    exact ⟨floorDec_toNat _, floorDec_toNat _, KeepsAllBut_with_dt_st s _ _⟩
  · intro hf
    obtain ⟨f, hf⟩ := Option.ne_none_iff_exists'.mp hf
    exact s.tickTimers_faulted hf

end Sys2Proof.Machine
end

section
/-! The invariant (20_memory.md R34, R35; 10_state.md R22, R23; 60_exceptions.md R112): boot meets it, and every step
and every other transaction keeps it. Each of its clauses has its own lemma about one instruction. -/

namespace Sys2Proof.Machine

/-! ### Changes the invariant does not see -/

/-- The invariant reads memory, the parameters, pc, the stack and the fault record. -/
theorem Inv.of_same {s t : State} (hi : Inv s) (hm : t.mem = s.mem) (hp : t.params = s.params)
    (hst : t.stack = s.stack) (hsp : t.sp = s.sp) (hf : t.fault = s.fault) (hpc : t.pc.toNat ≤ 0x10FE) : Inv t where
  memoryCanonical := by rw [hm, hp]; exact hi.memoryCanonical
  fontIntact := by unfold State.byteAt; rw [hm, hp]; exact hi.fontIntact
  pcReach := hpc
  returnsReach := by rw [hst, hsp]; exact hi.returnsReach
  faultLegal := by rw [hf]; exact hi.faultLegal

/-- Recording a legal fault keeps it. -/
theorem Inv.withFault {s : State} (hi : Inv s) {f : Fault} (hf : f.legal) : Inv { s with fault := some f } :=
  { hi with faultLegal := by rintro g ⟨⟩; exact hf }

theorem Inv.endStep {s : State} (hi : Inv s) : Inv s.endStep := by
  rw [State.endStep_eq]; exact hi.of_same rfl rfl rfl rfl rfl hi.pcReach

theorem Inv.tickTimers {s : State} (hi : Inv s) : Inv s.tickTimers := by
  unfold State.tickTimers
  split
  · exact hi
  · exact hi.of_same rfl rfl rfl rfl rfl hi.pcReach

theorem Inv.setKey {s : State} (hi : Inv s) (k : Nibble) (p : Bool) : Inv (s.setKey k p) := by
  unfold State.setKey
  split
  · exact hi
  · exact hi.of_same rfl rfl rfl rfl rfl hi.pcReach

theorem Inv.clearDirty {s : State} (hi : Inv s) : Inv s.clearDirty := by
  unfold State.clearDirty
  split
  · exact hi
  · exact hi.of_same rfl rfl rfl rfl rfl hi.pcReach

theorem Inv.keyWaitStep {s : State} (hi : Inv s) : Inv s.keyWaitStep := by
  unfold State.keyWaitStep
  split
  · exact hi
  · exact hi.of_same rfl rfl rfl rfl rfl hi.pcReach

/-! ### One instruction, clause by clause -/

/-- The address a failing data access reports is out of range and no larger than I can make it (R112). -/
theorem dataFaultAddr_range (s : State) : 0xFFF < dataFaultAddr s ∧ dataFaultAddr s ≤ 0xFFFF := by
  unfold dataFaultAddr
  split <;> omega

/-- Every fault an instruction raises is one R112 allows. -/
theorem Raises.legal {s : State} {i : Instr} {f : Fault} (h : Raises s i f) : f.legal := by
  cases h with
  | ret | call => rfl
  | skp x h | sknp x h => exact h
  | drw | ldRegs | ldB | stRegs => exact dataFaultAddr_range s
  | ldBFont x h | stRegsFont x h => exact h

section
variable {i : Instr} {s t : State}

theorem exec_memoryCanonical (h : exec i s = .next t) (hm : Memory.wf s.params.font s.mem = true) :
    Memory.wf t.params.font t.mem = true := by
  rcases exec_cases h with ⟨f, -, rfl⟩ | hc
  · exact hm
  · by_cases hw : .mem ∈ writtenParts i
    · rcases writerOf_of_mem hw with ⟨x, rfl⟩ | ⟨x, rfl⟩
      · rcases execLdB_cases h with ⟨-, rfl⟩ | ⟨-, -, rfl⟩ | ⟨-, h1, rfl⟩
        · exact hm
        · exact hm
        · exact State.storeBytes_wf _ _ _ (by simp only [bcdBytes_length, memSize]; omega) hm
      · rcases execStRegs_cases h with ⟨-, rfl⟩ | ⟨-, -, rfl⟩ | ⟨-, h1, rfl⟩
        · exact hm
        · exact hm
        · exact State.storeBytes_wf _ _ _ (by simp only [State.regBytes_length, memSize]; omega) hm
    · rw [hc.mem hw, exec_params h]; exact hm

/-- No instruction stores below 0x050, where the font is (R39). -/
theorem exec_fontIntact (h : exec i s = .next t)
    (hfont : ∀ a, a < fontSize → s.byteAt a = unlistedByte s.params.font a) :
    ∀ a, a < fontSize → t.byteAt a = unlistedByte t.params.font a := by
  intro a ha
  have kept : t.byteAt a = s.byteAt a :=
    by_contra fun hne => absurd (onlyTwoInstructionsStoreToMemory i s t h a hne).1 (not_le.mpr ha)
  rw [kept, exec_params h, hfont a ha]

/-- The next address does not wrap. -/
theorem pc_add_two_toNat {pc : Word} (hp : pc.toNat ≤ 0xFFE) : (pc + 2).toNat = pc.toNat + 2 := by
  rw [BitVec.toNat_add]; simp; omega

/-- NNN + V0 fits in 16 bits (R75). -/
theorem jpV0_target_toNat (nnn : Addr12) (b : Byte) : (addrWord nnn + b.setWidth 16).toNat = nnn.toNat + b.toNat := by
  rw [add_byte_toNat, addrWord_toNat]; omega

/-- After an instruction at most at 0xFFE, pc is at most 0x10FE, which JP V0 reaches with NNN = 0xFFF and V0 = 0xFF. -/
theorem exec_pcReach (h : exec i s = .next t) (hp : s.pc.toNat ≤ 0xFFE)
    (hr : ∀ (k : Nat) (h : k < 16), k < s.sp.val → 2 ≤ s.stack[k].toNat ∧ s.stack[k].toNat ≤ 0x1000) :
    t.pc.toNat ≤ 0x10FE := by
  have next : (s.pc + 2).toNat = s.pc.toNat + 2 := pc_add_two_toNat hp
  have skip (c : Bool) : (s.advance.skipIf c).pc.toNat ≤ 0x1002 := by
    rw [s.advance_skipIf_eq, State.jumpTo_pc]
    cases c <;> simp [BitVec.toNat_add] <;> omega
  cases i with
  | ret =>
    rcases execRet_cases h with ⟨-, rfl⟩ | ⟨k, hk, hsp, rfl⟩
    · exact hp.trans (by decide)
    · exact (hr k hk (by omega)).2.trans (by decide)
  | call nnn =>
    rcases execCall_cases h with ⟨-, rfl⟩ | ⟨-, rfl⟩
    · exact hp.trans (by decide)
    · simp; omega
  | jp nnn => cases h; simp; omega
  | jpV0 nnn =>
    cases h
    have : (addrWord nnn + (s.getV 0).setWidth 16).toNat = nnn.toNat + (s.getV 0).toNat := jpV0_target_toNat nnn _
    simp only [State.jumpTo_pc]; omega
  | skp x =>
    rcases execSkp_cases h with ⟨-, rfl⟩ | ⟨k, -, rfl⟩
    · exact hp.trans (by decide)
    · exact (skip _).trans (by decide)
  | sknp x =>
    rcases execSknp_cases h with ⟨-, rfl⟩ | ⟨k, -, rfl⟩
    · exact hp.trans (by decide)
    · exact (skip _).trans (by decide)
  | seK | sneK | seV | sneV => cases h; exact (skip _).trans (by decide)
  | _ =>
    rcases exec_cases h with ⟨f, -, rfl⟩ | hc
    · exact hp.trans (by decide)
    · rw [hc.next rfl]; omega

/-- A call is the one instruction that fills a stack entry, with the address after it (R70). -/
theorem exec_returnsReach (h : exec i s = .next t) (hp : s.pc.toNat ≤ 0xFFE)
    (hr : ∀ (k : Nat) (h : k < 16), k < s.sp.val → 2 ≤ s.stack[k].toNat ∧ s.stack[k].toNat ≤ 0x1000) :
    ∀ (k : Nat) (h : k < 16), k < t.sp.val → 2 ≤ t.stack[k].toNat ∧ t.stack[k].toNat ≤ 0x1000 := by
  cases i with
  | ret =>
    rcases execRet_cases h with ⟨-, rfl⟩ | ⟨k, hk, hsp, rfl⟩
    · exact hr
    · exact fun j hj hlt => hr j hj (by simp at hlt; omega)
  | call nnn =>
    rcases execCall_cases h with ⟨-, rfl⟩ | ⟨hk, rfl⟩
    · exact hr
    · intro j hj hlt
      have hlt : j < s.sp.val + 1 := hlt
      have pushed : (s.pc + 2).toNat = s.pc.toNat + 2 := pc_add_two_toNat hp
      rw [Vector.getElem_set]
      split
      · omega
      · exact hr j hj (by omega)
  | _ =>
    have hst : t.stack = s.stack := by_contra fun hne => by simpa [WriterOf] using exec_writerOf h .stack nofun hne
    have hsp : t.sp = s.sp := by_contra fun hne => by simpa [WriterOf] using exec_writerOf h .sp nofun hne
    rw [hst, hsp]; exact hr

theorem exec_faultLegal (h : exec i s = .next t) (hf : ∀ f, s.fault = some f → f.legal) :
    ∀ f, t.fault = some f → f.legal := by
  rcases exec_cases h with ⟨f, hr, rfl⟩ | hc
  · rintro g ⟨⟩; exact hr.legal
  · rwa [show t.fault = s.fault from hc.frame .fault (fault_notMem_writtenParts i)]

/-- An instruction at most at 0xFFE keeps the invariant. -/
theorem Inv.of_exec (hi : Inv s) (hp : s.pc.toNat ≤ 0xFFE) (h : exec i s = .next t) : Inv t where
  memoryCanonical := exec_memoryCanonical h hi.memoryCanonical
  fontIntact := exec_fontIntact h hi.fontIntact
  pcReach := exec_pcReach h hp hi.returnsReach
  returnsReach := exec_returnsReach h hp hi.returnsReach
  faultLegal := exec_faultLegal h hi.faultLegal

end

/-! ### Steps, transactions and runs -/

/-- Every step keeps the invariant, by its cases in the order of R119. -/
theorem Inv.step {s t : State} (hi : Inv s) (h : step s = .next t) : Inv t := by
  rcases step_cases h with ⟨f, -, rfl⟩ | ⟨-, -, rfl⟩ | ⟨-, -, hp, rfl⟩ | ⟨-, -, hp, u, rfl, ⟨i, hu⟩ | rfl⟩
  · exact hi
  · exact hi.keyWaitStep.endStep
  · exact hi.withFault ⟨hp, Nat.le_of_lt_succ s.pc.isLt⟩
  · exact (hi.of_exec hp hu).endStep
  · have hpc : s.advance.pc.toNat ≤ 0x10FE := by rw [State.advance_pc, pc_add_two_toNat hp]; omega
    exact (hi.of_same (t := s.advance) rfl rfl rfl rfl rfl hpc).endStep

theorem Inv.transact {x : Transaction} {s t : State} (hi : Inv s) (h : transact x s = .next t) : Inv t := by
  cases x with
  | step => exact hi.step h
  | tickTimers => cases h; exact hi.tickTimers
  | setKey k p => cases h; exact hi.setKey k p
  | clearDirty => cases h; exact hi.clearDirty
  | readDisplay | readDirty | readTimers | readFault => cases h; exact hi

/-- Every transaction answers a next state. -/
theorem transact_answers_next (x : Transaction) (s : State) : ∃ t, transact x s = .next t := by
  cases x with
  | step => exact step_answers_next s
  | _ => exact ⟨_, rfl⟩

/-- The reset state of any parameters meets the invariant. -/
theorem inv_construct (p : Params) : Inv (construct p) where
  memoryCanonical := rfl
  fontIntact _ _ := rfl
  pcReach := show (0x200 : Word).toNat ≤ 0x10FE by decide
  returnsReach := nofun
  faultLegal := nofun

/-- A store that lies in 0x050–0xFFF keeps the invariant. -/
theorem Inv.storeBytes {s : State} (hi : Inv s) {base : Nat} {bs : List Byte} (h0 : 0x050 ≤ base)
    (h : base + bs.length ≤ 0x1000) : Inv (s.storeBytes base bs) where
  memoryCanonical := s.storeBytes_wf base bs h hi.memoryCanonical
  fontIntact a ha := by
    have below : ¬(base ≤ a ∧ a < base + bs.length) := by simp only [fontSize] at ha; omega
    rw [State.byteAt_storeBytes, dif_neg below, State.storeBytes_params, hi.fontIntact a ha]
  pcReach := by simpa using hi.pcReach
  returnsReach := by simpa using hi.returnsReach
  faultLegal := by simpa using hi.faultLegal

/-- `boot` with an image that fits stores it at 0x200 (R144). -/
theorem boot_ok (p : Params) {image : List Byte} (h : image.length ≤ 0xE00) :
    boot p image = .ok ((construct p).storeBytes 0x200 image) := by
  rw [boot, State.load, if_neg (not_lt.mpr h)]

/-- `boot` with a longer image loads nothing (R116). -/
theorem boot_tooLarge (p : Params) {image : List Byte} (h : 0xE00 < image.length) :
    boot p image = .programTooLarge image.length := by
  rw [boot, State.load, if_pos h]

/-- A booted core meets the invariant: the image lies above the font and inside memory. -/
theorem inv_of_boot {p : Params} {image : List Byte} {s : State} (h : boot p image = .ok s) : Inv s := by
  by_cases hl : image.length ≤ 0xE00
  · rw [boot_ok p hl] at h
    cases h
    exact (inv_construct p).storeBytes (by decide) (by omega)
  · rw [boot_tooLarge p (by omega)] at h
    cases h

/-- A run completes and keeps the invariant, transaction by transaction. -/
theorem Inv.runHost {s : State} (hi : Inv s) (xs : List Transaction) : ∃ t, runHost xs s = .next t ∧ Inv t := by
  induction xs generalizing s with
  | nil => exact ⟨s, rfl, hi⟩
  | cons x xs ih =>
    obtain ⟨u, hu⟩ := transact_answers_next x s
    obtain ⟨t, ht, hit⟩ := ih (hi.transact hu)
    exact ⟨t, by rw [Machine.runHost, hu]; exact ht, hit⟩

/-! ### The obligations -/

/-- Settles O14: reset is `construct` with the default parameters. -/
theorem resetMeetsTheInvariant : Obligations.ResetMeetsTheInvariant := inv_construct defaultParams

/-- Settles O15: the invariant is kept clause by clause by every instruction, and by the other cases of a step. -/
theorem everyStepKeepsTheInvariant : Obligations.EveryStepKeepsTheInvariant := fun _ _ hi h => hi.step h

/-- Settles O53: boot stores above the font, and a transaction is a step or changes nothing the invariant reads. -/
theorem everyTransactionKeepsTheInvariant : Obligations.EveryTransactionKeepsTheInvariant :=
  ⟨fun _ _ _ h => inv_of_boot h, fun _ _ _ hi h => hi.transact h⟩

/-- Settles O16: by induction over the run, from the booted core. -/
theorem everyHostRunAfterBootKeepsTheInvariant : Obligations.EveryHostRunAfterBootKeepsTheInvariant :=
  fun _ _ _ h xs => (inv_of_boot h).runHost xs

end Sys2Proof.Machine
end

section
/-! Subtraction, shifts and the random byte (42_register_alu.md R78, R86 to R91): what the two orders of flag and result
leave in V[X] and VF, and the obligations of the four flag instructions and RND. -/

namespace Sys2Proof.Machine

/-! ### What the instructions answer -/

theorem exec_sub (x y : Nibble) (s : State) : exec (.sub x y) s = .next
    (s.advance.flagAndResult x (greaterFlag (s.getV x) (s.getV y)) fun t => t.getV x - t.getV y) := rfl

theorem exec_shr (x y : Nibble) (s : State) :
    exec (.shr x y) s = .next (s.advance.flagAndResult x (lsbFlag (s.getV x)) fun t => t.getV x >>> 1) := rfl

theorem exec_subn (x y : Nibble) (s : State) : exec (.subn x y) s = .next
    (s.advance.flagAndResult x (greaterFlag (s.getV y) (s.getV x)) fun t => t.getV y - t.getV x) := rfl

theorem exec_shl (x y : Nibble) (s : State) :
    exec (.shl x y) s = .next (s.advance.flagAndResult x (lsbFlag (s.getV x)) fun t => t.getV x <<< 1) := rfl

theorem exec_rnd (x : Nibble) (kk : Byte) (s : State) : exec (.rnd x kk) s =
    .next ({ s.advance with rng := s.rng + 1 }.setV x (Config.randomByte s.rng &&& kk)) := rfl

/-! ### The numbers -/

theorem byte_sub_toNat (a b : Byte) : (a - b).toNat = (a.toNat + 256 - b.toNat) % 256 := by
  rw [BitVec.toNat_sub]; omega

theorem greaterFlag_toNat (a b : Byte) : (greaterFlag a b).toNat = if a.toNat > b.toNat then 1 else 0 := by
  unfold greaterFlag flagByte
  by_cases h : a.toNat > b.toNat <;> simp [h]

theorem greaterFlag_self (a : Byte) : greaterFlag a a = 0 := by simp [greaterFlag, flagByte]

theorem lsbFlag_toNat (a : Byte) : (lsbFlag a).toNat = a.toNat % 2 := by
  rw [lsbFlag, BitVec.toNat_and]; exact Nat.and_one_is_mod _

theorem byte_shiftRight_one_toNat (a : Byte) : (a >>> 1).toNat = a.toNat / 2 := by
  rw [BitVec.toNat_ushiftRight, Nat.shiftRight_eq_div_pow]

theorem byte_shiftLeft_one_toNat (a : Byte) : (a <<< 1).toNat = a.toNat * 2 % 256 := by
  rw [BitVec.toNat_shiftLeft, Nat.shiftLeft_eq]

/-! ### The two orders of flag and result -/

/-- What an instruction that writes a flag and a result in the order of FLAG_ORDER leaves (R78): its frame, and the two
registers under each order. `apart` is the case of no overlap, in which the orders agree. -/
structure FlagAndResult (s t : State) (x : Nibble) (flag : Byte) (result : State → Byte) : Prop where
  pc : t.pc = s.pc + 2
  regs : KeepsRegsBut [x, 0xF] s t
  frame : KeepsAllBut [.v, .pc] s t
  vf : x ≠ 0xF → t.getV 0xF = flag
  asListed : s.params.flagOrder = .asListed → t.getV x = result (s.advance.setV 0xF flag)
  flagLast : s.params.flagOrder = .flagLast → t.getV 0xF = flag ∧ (x ≠ 0xF → t.getV x = result s.advance)
  apart : x ≠ 0xF → result (s.advance.setV 0xF flag) = result s.advance → t.getV x = result s.advance

theorem flagAndResult_spec (s : State) (x : Nibble) (flag : Byte) (result : State → Byte) :
    FlagAndResult s (s.advance.flagAndResult x flag result) x flag result where
  pc := by simp
  regs := KeepsRegsBut_flagAndResult s.advance _ _ _
  frame := by rw [State.flagAndResult_eq]; exact KeepsAllBut_with_v_pc s _ _
  vf (hx : x ≠ flagReg) := by
    change (s.advance.flagAndResult x flag result).getV flagReg = flag
    unfold State.flagAndResult
    split
    · rw [State.getV_setV_ne _ _ hx.symm, State.getV_setV_self]
    · rw [State.getV_setV_self]
  asListed ho := (State.getV_flagAndResult_asListed s.advance x x flag result ho).trans (if_pos rfl)
  flagLast ho := ⟨(State.getV_flagAndResult_flagLast s.advance x flagReg flag result ho).trans (if_pos rfl),
    fun hx => (State.getV_flagAndResult_flagLast s.advance x x flag result ho).trans ((if_neg hx).trans (if_pos rfl))⟩
  apart (hx : x ≠ flagReg) hr := by
    rw [State.flagAndResult_apart _ hx hr, State.getV_setV_ne _ _ hx, State.getV_setV_self]

/-- A subtraction of V[q] from V[p] into V[x], where VF may be any of the three (R86, R88): under AsListed each operand
that is VF reads the flag. -/
theorem subtract_spec {s t : State} {x p q : Nibble}
    (spec : FlagAndResult s t x (greaterFlag (s.getV p) (s.getV q)) fun u => u.getV p - u.getV q) :
    let m := (s.getV p).toNat
    let n := (s.getV q).toNat
    let f := if m > n then 1 else 0
    (x ≠ 0xF → (t.getV 0xF).toNat = f) ∧
    (x ≠ 0xF → p ≠ 0xF → q ≠ 0xF → (t.getV x).toNat = (m + 256 - n) % 256) ∧
    (s.params.flagOrder = .asListed →
      (t.getV x).toNat = ((if p = 0xF then f else m) + 256 - if q = 0xF then f else n) % 256) ∧
    (s.params.flagOrder = .flagLast →
      (t.getV 0xF).toNat = f ∧ (x ≠ 0xF → (t.getV x).toNat = (m + 256 - n) % 256)) := by
  intro m n f
  have hf : (greaterFlag (s.getV p) (s.getV q)).toNat = f := greaterFlag_toNat _ _
  refine ⟨fun hx => by rw [spec.vf hx, hf], fun hx hp hq => ?apart, fun ho => ?asListed,
    fun ho => ⟨?vf, fun hx => ?dest⟩⟩
  case apart =>
    rw [spec.apart hx (by simp only [State.getV_setV_ne _ _ hp, State.getV_setV_ne _ _ hq]), byte_sub_toNat]; rfl
  case asListed =>
    have flagged (r : Nibble) : ((s.advance.setV 0xF (greaterFlag (s.getV p) (s.getV q))).getV r).toNat =
        if r = 0xF then f else (s.getV r).toNat := by
      rw [State.getV_setV, apply_ite BitVec.toNat, hf]; rfl
    rw [spec.asListed ho, byte_sub_toNat, flagged, flagged]
  case vf => rw [(spec.flagLast ho).1, hf]
  case dest => rw [(spec.flagLast ho).2 hx, byte_sub_toNat]; rfl

/-- A register less itself is 0 and so is the flag, whichever is written last. -/
theorem subtract_self {s t : State} {x : Nibble}
    (spec : FlagAndResult s t x (greaterFlag (s.getV x) (s.getV x)) fun u => u.getV x - u.getV x) (hx : x = 0xF) :
    (t.getV 0xF).toNat = 0 := by
  subst hx
  rcases ho : s.params.flagOrder with _ | _
  · rw [spec.asListed ho, BitVec.sub_self]; rfl
  · rw [(spec.flagLast ho).1, greaterFlag_self]; rfl

/-! ### The obligations -/

/-- Settles O30: V[X] is the minuend and V[Y] the subtrahend. -/
theorem subtractWritesDifferenceAndFlag : Obligations.SubtractWritesDifferenceAndFlag := by
  intro s x y a b f
  have spec := flagAndResult_spec s x (greaterFlag (s.getV x) (s.getV y)) fun t => t.getV x - t.getV y
  obtain ⟨vf, apart, asListed, flagLast⟩ := subtract_spec spec
  refine ⟨encodes_sub x y, _, exec_sub x y s, spec.pc, spec.regs, spec.frame, ?_, ?_, ?_, ?_, ?_, ?_⟩
  · exact fun hx hy => ⟨apart hx hx hy, vf hx⟩
  · rintro rfl hy ho
    exact (asListed ho).trans (by rw [if_pos rfl, if_neg hy])
  · exact fun _ _ ho => (flagLast ho).1
  · rintro hx rfl ho
    exact ⟨(asListed ho).trans (by rw [if_pos rfl, if_neg hx]), vf hx⟩
  · exact fun hx _ ho => ⟨(flagLast ho).2 hx, vf hx⟩
  · rintro rfl rfl
    exact subtract_self spec rfl

/-- Settles O32: V[Y] is the minuend and V[X] the subtrahend. -/
theorem reverseSubtractWritesDifferenceAndFlag : Obligations.ReverseSubtractWritesDifferenceAndFlag := by
  intro s x y a b f
  have spec := flagAndResult_spec s x (greaterFlag (s.getV y) (s.getV x)) fun t => t.getV y - t.getV x
  obtain ⟨vf, apart, asListed, flagLast⟩ := subtract_spec spec
  refine ⟨encodes_subn x y, _, exec_subn x y s, spec.pc, spec.regs, spec.frame, ?_, ?_, ?_, ?_, ?_, ?_⟩
  · exact fun hx hy => ⟨apart hx hy hx, vf hx⟩
  · rintro rfl hy ho
    exact (asListed ho).trans (by rw [if_pos rfl, if_neg hy])
  · exact fun _ _ ho => (flagLast ho).1
  · rintro hx rfl ho
    exact ⟨(asListed ho).trans (by rw [if_pos rfl, if_neg hx]), vf hx⟩
  · exact fun hx _ ho => ⟨(flagLast ho).2 hx, vf hx⟩
  · rintro rfl rfl
    exact subtract_self spec rfl

/-- Settles O31: under AsListed with X = 0xF the shift reads the flag, which is at most 1. -/
theorem shiftRightReportsTheLowBit : Obligations.ShiftRightReportsTheLowBit := by
  intro s x y a
  have spec := flagAndResult_spec s x (lsbFlag (s.getV x)) fun t => t.getV x >>> 1
  refine ⟨encodes_shr x y, _, exec_shr x y s, spec.pc, spec.regs, spec.frame, ?apart, ?asListed, ?flagLast⟩
  case apart =>
    intro hx
    rw [spec.apart hx (by simp only [State.getV_setV_ne _ _ hx]), spec.vf hx, byte_shiftRight_one_toNat, lsbFlag_toNat]
    exact ⟨rfl, rfl⟩
  case asListed =>
    rintro rfl ho
    rw [spec.asListed ho, State.getV_setV_self, byte_shiftRight_one_toNat, lsbFlag_toNat]
    omega
  case flagLast => exact fun _ ho => by rw [(spec.flagLast ho).1, lsbFlag_toNat]

/-- Settles O33: under AsListed with X = 0xF the shift reads the flag and doubles it. -/
theorem shiftLeftReportsTheLowBit : Obligations.ShiftLeftReportsTheLowBit := by
  intro s x y a
  have spec := flagAndResult_spec s x (lsbFlag (s.getV x)) fun t => t.getV x <<< 1
  refine ⟨encodes_shl x y, _, exec_shl x y s, spec.pc, spec.regs, spec.frame, ?apart, ?asListed, ?flagLast⟩
  case apart =>
    intro hx
    rw [spec.apart hx (by simp only [State.getV_setV_ne _ _ hx]), spec.vf hx, byte_shiftLeft_one_toNat, lsbFlag_toNat]
    exact ⟨rfl, rfl⟩
  case asListed =>
    rintro rfl ho
    rw [spec.asListed ho, State.getV_setV_self, byte_shiftLeft_one_toNat, lsbFlag_toNat]
    omega
  case flagLast => exact fun _ ho => by rw [(spec.flagLast ho).1, lsbFlag_toNat]

/-- Settles O34: one register write, of the drawn byte under the mask, and one draw more. -/
theorem randomWritesTheMaskedDraw : Obligations.RandomWritesTheMaskedDraw := by
  intro s x kk
  refine ⟨encodes_rnd x kk, _, exec_rnd x kk s, ?bits, ?zero, rfl, rfl, KeepsRegsBut_setV _ x _,
    KeepsAllBut_with_v_pc_rng s _ _ _⟩
  case bits => intro n; rw [State.getV_setV_self, BitVec.getLsbD_and]
  case zero => rintro rfl; rw [State.getV_setV_self]; exact BitVec.and_zero

end Sys2Proof.Machine
end

section
/-! Memory transfers (43_index_memory.md R95 to R97; 20_memory.md R50): the bytes FX33 and FX55 store, as memory
overlaid by them, and the registers FX65 loads. -/

namespace Sys2Proof.Machine

/-! ### The stored bytes -/

/-- The digit of weight 10 ^ (2 − k) of a byte (R95). -/
def bcdDigit (b : Byte) (k : Nat) : Byte := BitVec.ofNat 8 (b.toNat / 10 ^ (2 - k) % 10)

/-- The stored digits, hundreds first; the hundreds are at most 2. -/
theorem getElem_bcdBytes (b : Byte) (k : Nat) (h : k < (bcdBytes b).length) : (bcdBytes b)[k] = bcdDigit b k := by
  have hundreds : b.toNat / 100 % 10 = b.toNat / 100 := by omega
  have hk : k < 3 := h
  interval_cases k <;> simp [bcdBytes, bcdDigit, hundreds]

/-- A digit as a number. -/
theorem bcdDigit_toNat (b : Byte) (k : Nat) : (bcdDigit b k).toNat = b.toNat / 10 ^ (2 - k) % 10 := by
  rw [bcdDigit, BitVec.toNat_ofNat]
  exact Nat.mod_eq_of_lt (lt_trans (Nat.mod_lt _ (by decide)) (by decide))

section
variable (s : State) (x : Nibble)

/-- Memory after FX33: overlaid by the three digits. -/
theorem byteAt_storeDigits (a : Nat) :
    (s.advance.storeBytes (s.dataAddr 0) (bcdBytes (s.getV x))).byteAt a = overlaid s 2 (bcdDigit (s.getV x)) a :=
  byteAt_storeBytes_eq_overlaid s.advance 2 _ _ (bcdBytes_length _) (getElem_bcdBytes _) a

/-- Memory after FX55: overlaid by V[0] to V[x]. -/
theorem byteAt_storeRegs (a : Nat) :
    (s.advance.storeBytes (s.dataAddr 0) (s.regBytes x)).byteAt a =
      overlaid s x.toNat (fun k => s.getV (BitVec.ofNat 4 k)) a :=
  byteAt_storeBytes_eq_overlaid s.advance x.toNat _ _ (s.regBytes_length x) (s.getElem_regBytes x) a

variable {s} {last : Nat} {stored : Nat → Byte}

/-- Inside the stored range the overlay is the stored byte of the offset. -/
theorem overlaid_dataAddr {k : Nat} (hk : k ≤ last) : overlaid s last stored (s.dataAddr k) = stored k := by
  have inside : s.dataAddr 0 ≤ s.dataAddr k ∧ s.dataAddr k ≤ s.dataAddr last := by
    unfold State.dataAddr; omega
  rw [overlaid, if_pos inside]
  exact congrArg stored (by unfold State.dataAddr; omega)

/-- Outside it the overlay is the byte of before. -/
theorem overlaid_outside {a : Nat} (h : ¬(s.dataAddr 0 ≤ a ∧ a ≤ s.dataAddr last)) :
    overlaid s last stored a = s.byteAt a := if_neg h

end

/-! ### The loaded registers -/

/-- FX65 loads V[0] to V[x] and no other (R97). -/
theorem getV_loadRegs_advance (s : State) (x k : Nibble) :
    (s.advance.loadRegs (s.dataAddr 0) (x.toNat + 1)).getV k =
      if k.toNat ≤ x.toNat then s.byteAt (s.dataAddr k.toNat) else s.getV k := by
  rw [State.getV_loadRegs _ _ _ x.isLt]
  exact if_congr Nat.lt_succ_iff rfl rfl

/-- The word at pc is that of any two bytes that stand there. -/
theorem fetchWord_of_byteAt {u : State} {seen : Nat → Byte} (hp : u.pc.toNat ≤ 0xFFE) (h : ∀ a, u.byteAt a = seen a) :
    u.fetchWord = .ok (wordOfBytes (seen u.pc.toNat) (seen (u.pc.toNat + 1))) := by
  rw [u.fetchWord_ok hp, h, h]

/-! ### The obligations -/

/-- Settles O37: the store of the digits is an overlay of memory, and each failing address stops it before. -/
theorem decimalDigitsAreStoredOrNothingIs : Obligations.DecimalDigitsAreStoredOrNothingIs := by
  intro s x
  refine ⟨encodes_ldB x, ?stores, exec_ldB_font s x, exec_ldB_range s x⟩
  intro h0 h2
  have digit (k : Nat) (hk : k ≤ 2) : ((s.advance.storeBytes (s.dataAddr 0) (bcdBytes (s.getV x))).byteAt
      (s.dataAddr k)).toNat = (s.getV x).toNat / 10 ^ (2 - k) % 10 := by
    rw [byteAt_storeDigits, overlaid_dataAddr hk, bcdDigit_toNat]
  have hundreds : (s.getV x).toNat / 100 % 10 = (s.getV x).toNat / 100 := by omega
  refine ⟨_, exec_ldB_ok s x h0 h2, (digit 0 (by decide)).trans hundreds, digit 1 (by decide), ?ones,
    fun a ha => ?outside, by simp, KeepsAllBut_advance_storeBytes s _ _⟩
  case ones => rw [digit 2 le_rfl]; simp
  case outside => rw [byteAt_storeDigits, overlaid_outside ha]

/-- Settles O38: the store of the registers is an overlay of memory, and each failing address stops it before. -/
theorem registersAreStoredOrNothingIs : Obligations.RegistersAreStoredOrNothingIs := by
  intro s x
  refine ⟨encodes_stRegs x, ?stores, exec_stRegs_font s x, exec_stRegs_range s x⟩
  intro h0 hx
  refine ⟨_, exec_stRegs_ok s x h0 hx, fun k hk => ?inside, fun a ha => ?outside, by simp,
    KeepsAllBut_advance_storeBytes s _ _⟩
  case inside => rw [byteAt_storeRegs, overlaid_dataAddr hk, BitVec.ofNat_toNat, BitVec.setWidth_eq]
  case outside => rw [byteAt_storeRegs, overlaid_outside ha]

/-- Settles O39: the load writes registers only, those up to V[X]. -/
theorem registersAreLoadedOrNoneIs : Obligations.RegistersAreLoadedOrNoneIs := by
  intro s x
  refine ⟨encodes_ldRegs x, fun hx => ?loads, exec_ldRegs_range s x⟩
  refine ⟨_, exec_ldRegs_ok s x hx, getV_loadRegs_advance s x, by simp, ?frame⟩
  rw [State.loadRegs_eq]; exact KeepsAllBut_with_v_pc s _ _

/-- Settles O40: the load reads at the stored addresses, and finds the stored registers there. -/
theorem storeThenLoadRestoresRegisters : Obligations.StoreThenLoadRestoresRegisters := by
  intro s t u x h0 hx h hi hkept
  obtain ⟨t', ht', stored, -⟩ := (registersAreStoredOrNothingIs s x).2.1 h0 hx
  obtain rfl : t = t' := by rw [ht'] at h; cases h; rfl
  have addr (k : Nat) : u.dataAddr k = s.dataAddr k := by unfold State.dataAddr; rw [hi]
  obtain ⟨w, hw, loaded, -⟩ := (registersAreLoadedOrNoneIs u x).2.1 (by rwa [addr])
  refine ⟨w, hw, fun k => ?_⟩
  rw [loaded, addr]
  split
  · next hk =>
    rw [hkept _ (by unfold State.dataAddr; omega) (by unfold State.dataAddr; omega), stored k hk]
  · rfl

/-- Settles O41: both stores are an overlay of memory, and the fetch joins two bytes of it. -/
theorem fetchSeesStoredBytes : Obligations.FetchSeesStoredBytes := by
  intro s t u x h0 hmem hp
  refine ⟨fun h2 h => ?ldB, fun hx h => ?stRegs⟩
  case ldB =>
    rw [exec_ldB_ok s x h0 h2] at h
    cases h
    exact fetchWord_of_byteAt hp fun a => (hmem a).trans (byteAt_storeDigits s x a)
  case stRegs =>
    rw [exec_stRegs_ok s x h0 hx] at h
    cases h
    exact fetchWord_of_byteAt hp fun a => (hmem a).trans (byteAt_storeRegs s x a)

end Sys2Proof.Machine
end

section
/-! Jumps with an offset, calls and returns (41_control_flow.md R68, R70, R75, R76), CLS (44_display.md R101), the key
instructions (45_timers_input.md R104 to R108), and what the host's own transactions do (60_exceptions.md R133 to R137;
70_reset_and_hazards.md R142 to R144). -/

namespace Sys2Proof.Machine

/-! ### What the instructions answer -/

theorem exec_jpV0 (nnn : Addr12) (s : State) :
    exec (.jpV0 nnn) s = .next (s.jumpTo (addrWord nnn + (s.getV 0).setWidth 16)) := rfl

theorem exec_cls (s : State) : exec .cls s = .next { s.advance with disp := Display.blank, dirty := true } := rfl

theorem exec_ldVK (x : Nibble) (s : State) :
    exec (.ldVK x) s = .next { s.advance with waiting := true, waitReg := x } := rfl

/-! ### Display, reset content, and the host's frames -/

@[simp] theorem Display.pixel_blank (px : Fin 64) (py : Fin 32) : Display.blank.pixel px py = false := by
  simp [Display.blank, Display.pixel]

/-- The reset content of the font region, glyph by glyph (R36). -/
theorem unlistedByte_glyph (font : Font) (d : Fin 16) (k : Fin 5) :
    unlistedByte font (5 * d.val + k.val) = font[d][k] := by
  have inFont : 5 * d.val + k.val < fontSize := by simp only [fontSize]; omega
  have glyph : (5 * d.val + k.val) / 5 = d.val := by omega
  have row : (5 * d.val + k.val) % 5 = k.val := by omega
  rw [unlistedByte, dif_pos inFont]
  simp only [glyph, row, Fin.getElem_fin]

/-- The reset content above the font is zero (R33). -/
theorem unlistedByte_above (font : Font) {a : Nat} (h : 0x050 ≤ a) : unlistedByte font a = 0 := dif_neg (not_lt.mpr h)

/-- A store changes memory only. -/
theorem KeepsAllBut_storeBytes (s : State) (base : Nat) (bs : List Byte) :
    KeepsAllBut [.mem] s (s.storeBytes base bs) :=
  (keepsAllBut_iff ..).mpr (by simp)

theorem KeepsAllBut_with_key (s : State) (key : Vector Bool 16) : KeepsAllBut [.key] s { s with key := key } :=
  (keepsAllBut_iff ..).mpr (by simp [State.byteAt, State.getV])

theorem KeepsAllBut_with_dirty (s : State) (dirty : Bool) : KeepsAllBut [.dirty] s { s with dirty := dirty } :=
  (keepsAllBut_iff ..).mpr (by simp [State.byteAt, State.getV])

theorem transact_setKey_running {s : State} (h : s.fault = none) (k : Nibble) (p : Bool) :
    transact (.setKey k p) s = .next { s with key := s.key.set k.toNat p k.isLt } := by
  simp [transact, State.setKey, h]

theorem transact_clearDirty_running {s : State} (h : s.fault = none) :
    transact .clearDirty s = .next { s with dirty := false } := by
  simp [transact, State.clearDirty, h]

/-! ### Control flow -/

/-- Settles O22: the jump is one move of pc to the exact sum, and a fetch beyond 0xFFE fails. -/
theorem jumpWithOffsetAddsVZero : Obligations.JumpWithOffsetAddsVZero := by
  intro s nnn
  exact ⟨encodes_jpV0 nnn, _, exec_jpV0 nnn s, jpV0_target_toNat nnn _, KeepsAllBut_jumpTo s _,
    fun hf hw hp => step_fetchFault _ hf hw hp⟩

/-- Settles O23: a push writes the entry at sp and no other. -/
theorem callPushesTheReturnAddress : Obligations.CallPushesTheReturnAddress := by
  intro s nnn
  refine ⟨encodes_call nnn, fun h => ⟨_, exec_call_ok s nnn h, addrWord_toNat nnn, rfl, ?entry, ?others,
    KeepsAllBut_with_pc_sp_stack s _ _ _⟩, exec_call_overflow s nnn⟩
  case entry => exact Vector.getElem_set_self h
  case others => exact fun k hk hne => Vector.getElem_set_ne h hk hne.symm

/-- Settles O24: a pop answers the entry below sp and writes no entry. -/
theorem returnPopsIntoPc : Obligations.ReturnPopsIntoPc := by
  intro s
  exact ⟨encodes_ret, fun k hk h => ⟨_, exec_ret_ok s k hk h, rfl, rfl, KeepsAllBut_with_pc_sp s _ _⟩,
    exec_ret_underflow s⟩

/-- Settles O25: the return pops the entry that the call pushed. -/
theorem returnUndoesCall : Obligations.ReturnUndoesCall := by
  intro s t nnn hsp h
  rw [exec_call_ok s nnn hsp] at h
  cases h
  refine ⟨_, exec_ret_ok _ s.sp.val hsp rfl, Vector.getElem_set_self hsp, rfl, ?frame⟩
  exact (keepsAllBut_iff ..).mpr (by simp [State.byteAt, State.getV])

/-! ### Display and keys -/

/-- Settles O42: the new display is the blank one. -/
theorem clearBlanksEveryPixel : Obligations.ClearBlanksEveryPixel := by
  intro s
  exact ⟨encodes_cls, _, exec_cls s, Display.pixel_blank, rfl, rfl, KeepsAllBut_with_disp_dirty_pc s _ _ _⟩

/-- Settles O45: both are a skip on the named key, and SKNP's condition is the opposite one. -/
theorem keySkipsReadTheNamedKey : Obligations.KeySkipsReadTheNamedKey := by
  intro s x
  refine ⟨encodes_skp x, encodes_sknp x, fun k hk => ⟨exec_skip_spec (exec_skp_ok s x k hk), ?sknp⟩,
    fun h => ⟨exec_skp_index s x h, exec_sknp_index s x h⟩⟩
  case sknp =>
    simpa only [Bool.not_eq_true', ← Bool.not_eq_true, ite_not] using exec_skip_spec (exec_sknp_ok s x k hk)

/-- Settles O47: the wait starts, and no register is among the changed pieces. -/
theorem keyWaitStartsWithoutWriting : Obligations.KeyWaitStartsWithoutWriting := by
  intro s x
  exact ⟨encodes_ldVK x, _, exec_ldVK x s, rfl, rfl, rfl, KeepsAllBut_with_waiting_waitReg_pc s _ _ _⟩

/-! ### The host's transactions -/

/-- Settles O49: an image that fits is one store at 0x200. -/
theorem loadPlacesTheImageOrRejectsIt : Obligations.LoadPlacesTheImageOrRejectsIt := by
  intro p image
  refine ⟨fun h => ⟨_, boot_ok p h, fun k hk => ?inside, fun a ha => ?outside, KeepsAllBut_storeBytes _ _ _⟩,
    boot_tooLarge p⟩
  case inside =>
    have range : 0x200 ≤ 0x200 + k ∧ 0x200 + k < 0x200 + image.length := by omega
    rw [State.byteAt_storeBytes, dif_pos range]
    simp only [Nat.add_sub_cancel_left]
  case outside => rw [State.byteAt_storeBytes, dif_neg ha]

/-- Settles O50: memory lists no cell, so it reads as its reset content, and every other value is written in `reset`. -/
theorem constructLeavesTheResetState : Obligations.ConstructLeavesTheResetState := by
  intro p
  refine ⟨unlistedByte_glyph p.font, fun a => unlistedByte_above p.font, rfl, ?regs, rfl, ?stack, rfl, rfl, rfl,
    Display.pixel_blank, ?keys, rfl, rfl, rfl, rfl, rfl, rfl⟩
  case regs => exact fun r => Vector.getElem_replicate _
  case stack => exact fun k => Vector.getElem_replicate _
  case keys => exact fun k => Vector.getElem_replicate _

/-- Settles O52: one key or Draw-Dirty is written, and each read answers from the state. -/
theorem hostWritesOneKeyOrClearsDirty : Obligations.HostWritesOneKeyOrClearsDirty := by
  intro s k p hf
  refine ⟨⟨_, transact_setKey_running hf k p, fun j => ?keys, KeepsAllBut_with_key s _⟩,
    ⟨_, transact_clearDirty_running hf, rfl, KeepsAllBut_with_dirty s _⟩, rfl, rfl, rfl, rfl, rfl, congrArg _ hf⟩
  case keys => rw [Fin.getElem_fin, Vector.getElem_set]; exact if_congr eq_comm rfl rfl

end Sys2Proof.Machine
end

section
/-! DRW (44_display.md R99, R100, R102, R103): the rows drawn by the model's loop cover exactly the pixels of the closed
form `spriteCovers`, so a draw is an XOR with it; and drawing twice (95_test_vectors.md E7). -/

namespace Sys2Proof.Machine

/-! ### The covered pixels -/

/-- A pixel is covered when the row that lands on it has a set bit there. -/
theorem rowsCover_iff (x0 y0 : Nat) (bs : List Byte) (r : Nat) (px : Fin 64) (py : Fin 32) (hr : r + bs.length ≤ 32) :
    rowsCover x0 y0 r bs px py = true ↔
      ∃ k, ∃ h : k < bs.length, rowOffset y0 py = r + k ∧ rowCovers bs[k] x0 8 px = true := by
  induction bs generalizing r with
  | nil => simp [rowsCover]
  | cons b bs ih =>
    simp only [List.length_cons] at hr
    simp only [rowsCover, Bool.or_eq_true, Bool.and_eq_true, decide_eq_true_eq, eq_wrapY_iff y0 py r (by omega),
      ih (r + 1) (by omega)]
    constructor
    · rintro (⟨hb, hrow⟩ | ⟨k, hk, hrow, hb⟩)
      · exact ⟨0, by simp, hrow, hb⟩
      · exact ⟨k + 1, by simpa using hk, by omega, hb⟩
    · rintro ⟨_ | k, hk, hrow, hb⟩
      · exact .inl ⟨hb, hrow⟩
      · exact .inr ⟨k, by simpa using hk, by omega, hb⟩

/-- The closed form in the terms of the drawing loop. -/
theorem spriteCovers_eq (s : State) (x0 y0 n : Nat) (px : Fin 64) (py : Fin 32) : spriteCovers s x0 y0 n px py =
    (decide (colOffset x0 px < 8) && decide (rowOffset y0 py < n) &&
      spriteBit (s.byteAt (s.i.toNat + rowOffset y0 py)) (colOffset x0 px)) := rfl

/-- The sprite at I, row by row, covers the pixels of the closed form (R99, R100). -/
theorem rowsCover_readBytes (s : State) (x0 y0 n : Nat) (hn : n ≤ 32) (px : Fin 64) (py : Fin 32) :
    rowsCover x0 y0 0 (s.readBytes s.i.toNat n) px py = spriteCovers s x0 y0 n px py := by
  have hl : (s.readBytes s.i.toNat n).length = n := by simp [State.readBytes]
  rw [Bool.eq_iff_iff, rowsCover_iff _ _ _ _ _ _ (by omega)]
  simp only [spriteCovers_eq, rowCovers, Bool.and_eq_true, decide_eq_true_eq, State.readBytes,
    List.getElem_map, List.getElem_range, List.length_map, List.length_range, Nat.zero_add]
  constructor
  · rintro ⟨k, hk, hrow, hc, hb⟩
    exact ⟨⟨hc, hrow ▸ hk⟩, hrow ▸ hb⟩
  · rintro ⟨⟨hc, hr⟩, hb⟩
    exact ⟨_, hr, rfl, hc, hb⟩

/-- What DXYN draws: an XOR with the covered pixels, and a collision when one of them was set (R102). -/
theorem drawResult_spec (x y n : Nibble) (s : State) :
    let covers := spriteCovers s (s.getV x).toNat (s.getV y).toNat n.toNat
    (∀ px py, (drawResult x y n s).1.pixel px py = (s.disp.pixel px py != covers px py)) ∧
    ((drawResult x y n s).2 = true ↔ ∃ px py, covers px py = true ∧ s.disp.pixel px py = true) := by
  intro covers
  have hn : n.toNat ≤ 32 := by omega
  obtain ⟨pixels, collision⟩ := drawRows_spec (s.getV x).toNat (s.getV y).toNat 0 (s.readBytes s.i.toNat n.toNat)
    (s.disp, false) (by simp [State.readBytes]; omega)
  simp only [rowsCover_readBytes s _ _ _ hn] at pixels collision
  exact ⟨pixels, collision.trans (or_iff_right Bool.false_ne_true)⟩

/-- Two displays with the same pixels are the same. -/
theorem Display.ext_pixel {d e : Display} (h : ∀ px py, d.pixel px py = e.pixel px py) : d = e := by
  refine Vector.ext fun y hy => Vector.ext fun x hx => ?_
  exact h ⟨x, hx⟩ ⟨y, hy⟩

/-- The closed form reads memory and I. -/
theorem spriteCovers_congr {s t : State} (hi : t.i = s.i) (hm : ∀ a, t.byteAt a = s.byteAt a) (x0 y0 n : Nat) :
    spriteCovers t x0 y0 n = spriteCovers s x0 y0 n := by
  funext px py
  simp only [spriteCovers_eq, hi, hm]

/-! ### The obligations -/

/-- Settles O43: the drawing loop in closed form, with VF its collision flag. -/
theorem drawXorsTheWrappedSprite : Obligations.DrawXorsTheWrappedSprite := by
  intro s x y n covers
  obtain ⟨pixels, collision⟩ := drawResult_spec x y n s
  refine ⟨encodes_drw x y n, fun h => ⟨_, exec_drw_ok s x y n h, pixels, fun hit => ?hit, fun miss => ?miss, rfl, rfl,
    KeepsRegsBut_setV s.advance flagReg _, KeepsAllBut_with_v_disp_dirty_pc s _ _ _ _⟩, exec_drw_range s x y n⟩
  case hit =>
    exact (State.getV_setV_self ..).trans (by rw [collision.mpr hit]; rfl)
  case miss =>
    have none : (drawResult x y n s).2 = false := by
      rw [← Bool.not_eq_true, collision]
      rintro ⟨px, py, hc, hp⟩
      rw [miss px py hc] at hp
      cases hp
    exact (State.getV_setV_self ..).trans (by rw [none]; rfl)

/-- Settles O44: the second draw covers the same pixels as the first, so the two XORs cancel. -/
theorem drawingTwiceRestoresTheDisplay : Obligations.DrawingTwiceRestoresTheDisplay := by
  intro s t x y n hx hy hin covers blank h
  obtain ⟨-, draws, -⟩ := drawXorsTheWrappedSprite s x y n
  obtain ⟨t', ht', pixels, -, miss, -, -, regs, frame⟩ := draws hin
  obtain rfl : t = t' := by rw [ht'] at h; cases h; rfl
  have same : spriteCovers t (t.getV x).toNat (t.getV y).toNat n.toNat = covers := by
    rw [regs x (by simpa using hx), regs y (by simpa using hy)]
    exact spriteCovers_congr (frame .i (by decide)) (frame .mem (by decide)) _ _ _
  have hin' : t.dataAddr n.toNat ≤ 0x1000 ∨ n = 0 := by
    unfold State.dataAddr at hin ⊢
    rwa [show t.i = s.i from frame .i (by decide)]
  obtain ⟨-, draws', -⟩ := drawXorsTheWrappedSprite t x y n
  obtain ⟨u, hu, pixels', hit', miss', -⟩ := draws' hin'
  rw [same] at pixels' hit' miss'
  refine ⟨miss blank, u, hu, ?restored, ?hit, ?none⟩
  case restored =>
    exact Display.ext_pixel fun px py => by rw [pixels', pixels]; simp [covers]
  case hit =>
    rintro ⟨px, py, hc⟩
    exact hit' ⟨px, py, hc, by rw [pixels, blank px py hc]; simpa using hc⟩
  case none =>
    intro hnone
    exact miss' fun px py hc => absurd hc (by simp [hnone])

end Sys2Proof.Machine
end
